-- ==== Sys2Proof/Word.lean ====
section
/-! DEFINITION. The words of the machine (00_scope.md R8, R11): 32-bit registers, bytes, 8-byte blocks and keys, and the names of the three buffers (20_memory.md R50). -/

namespace Sys2Proof

/-- The contents of a register: 32 bits (00_scope.md R7 `REGW`, R8). -/
abbrev Word := BitVec 32

/-- A byte: an unsigned integer in [0, 255] (R8). -/
abbrev Byte := BitVec 8

/-- A block: a sequence of exactly 8 bytes, `b0` the byte at index 0 (R11; 20_memory.md R65 (3)). -/
structure Block where
  b0 : Byte
  b1 : Byte
  b2 : Byte
  b3 : Byte
  b4 : Byte
  b5 : Byte
  b6 : Byte
  b7 : Byte
  deriving DecidableEq, Repr, Inhabited

/-- A key: a sequence of exactly 8 bytes (R7 `KEYLEN`, R11). -/
abbrev Key := Block

/-- The three byte buffers, named and disjoint (20_memory.md R50). -/
inductive Buf where
  | inA
  | inB
  | out
  deriving DecidableEq, Repr

end Sys2Proof
end

