-- ==== Sys2Proof/Syntax.lean ====
section
/-! DEFINITION. The block's whole instruction set (00_scope.md R2, 30_encoding.md R83): the four commands of spec/opcode_table.json. -/

namespace Sys2Proof

/-- A command. The command word carries no operand (30_encoding.md R82): every operand comes from the operand registers and the input buffers. -/
inductive Instr where
  /-- `MERGE`, nibble_interleave_merge (40_pixel_codec.md R110). -/
  | merge
  /-- `UNMERGE`, nibble_deinterleave_unmerge (40_pixel_codec.md R115). -/
  | unmerge
  /-- `ENVPAD`, cbc_pad_envelope (41_cipher_envelope.md R140). -/
  | envpad
  /-- `ENVUNPAD`, cbc_unpad_envelope (41_cipher_envelope.md R150). -/
  | envunpad
  deriving DecidableEq, Repr

end Sys2Proof
end

