-- ==== Sys2Proof/WellFormed.lean ====
section
/-! DEFINITION. The form checks: which command words are legal (30_encoding.md R80, R81), which register accesses have a meaning (20_memory.md R51, R54). A command carries no operand, so every term of Instr is well formed. -/

namespace Sys2Proof

/-- A command has no operand that could be out of range (30_encoding.md R82). -/
def Instr.wellFormed : Instr → Bool
  | .merge => true
  | .unmerge => true
  | .envpad => true
  | .envunpad => true

/-- R81: a command word is legal when bits 31:8 are 0 and bits 7:0 are one of the four opcodes. -/
def legalWord (w : Word) : Bool :=
  w.extractLsb' 8 24 == 0 && [1#8, 2#8, 3#8, 4#8].contains (w.extractLsb' 0 8)

/-- 20_memory.md R51: the only defined register accesses are 32 bits wide, at a multiple of 4 below 0x30. -/
def legalRegAccess (offset width : Nat) : Bool :=
  width == 32 && offset % 4 == 0 && decide (offset < 0x30)

end Sys2Proof
end

