-- ==== Sys2Proof/Decode.lean ====
section
/-! DEFINITION. The decoder of command words, total and rejecting by name (30_encoding.md R80, R81, R84), the encoder after it, and the opcode table's numbering of bits. -/

namespace Sys2Proof

/-- Why a command word is illegal (30_encoding.md R84). Both reasons have the same effect: `IllegalCommand`. -/
inductive IllegalWord where
  /-- Some bit of the field `ZERO`, bits 31:8, is set. -/
  | zeroFieldSet
  /-- `OPCODE` is 0x00 or from 0x05 to 0xFF. -/
  | reservedOpcode
  deriving DecidableEq, Repr

/-- Field `OPCODE`, bits 7:0 (R80). -/
def opcodeField (w : Word) : BitVec 8 := w.extractLsb' 0 8

/-- Field `ZERO`, bits 31:8 (R80). -/
def zeroField (w : Word) : BitVec 24 := w.extractLsb' 8 24

/-- R81, R84: the command a word stands for, or why it is illegal. -/
def decode (w : Word) : Except IllegalWord Instr :=
  if zeroField w ≠ 0 then .error .zeroFieldSet
  else
    match (opcodeField w).toNat with
    | 1 => .ok .merge
    | 2 => .ok .unmerge
    | 3 => .ok .envpad
    | 4 => .ok .envunpad
    | _ => .error .reservedOpcode

/-- The `OPCODE` of a command (R81). -/
def Instr.opcode : Instr → BitVec 8
  | .merge => 0x01
  | .unmerge => 0x02
  | .envpad => 0x03
  | .envunpad => 0x04

/-- The command word of a command: `ZERO` over `OPCODE` (R80). -/
def encode (i : Instr) : Word := (0 : BitVec 24) ++ i.opcode

/-- What the decoder reads from an instruction whose `nbits` bits are `w`, in the numbering of spec/opcode_table.json. A command is one 32-bit word (R80), so bits above `nbits` are 0 and a set bit above bit 31 is no command. Log 20. -/
def decodeTableWord (nbits w : Nat) : Option Instr :=
  let v := w % 2 ^ nbits
  if v < 2 ^ 32 then
    match decode (BitVec.ofNat 32 v) with
    | .ok i => some i
    | .error _ => none
  else none

end Sys2Proof
end

