-- ==== Sys2Proof/Config.lean ====
section
/-! DEFINITION. What an implementation fixes and what the spec leaves free (00_scope.md R6, R7, R15; 10_state.md R37). Every open value is an uninterpreted constant: it has no body, so no proof can see what it is. -/

namespace Sys2Proof

/-- The open parameter `CAP` of the block after reset: any number with `0 <= CAP <= 2^32 - 17` (00_scope.md R7; 93 I10). Log 1. -/
opaque Config.cap : Fin 4294967280

/-- `BC_ENC` of the open parameter `BC`: a total function of key and block (R7; 93 I8). Log 2. -/
opaque Config.bcEnc : Key → Block → Block

/-- `BC_DEC` of the open parameter `BC`. Nothing relates it to `Config.bcEnc`: `BC_INV` is an assumption a claim makes by name (R7). Log 2. -/
opaque Config.bcDec : Key → Block → Block

/-- The random source's n-th answer to `draw_iv()`, under no law (41_cipher_envelope.md R141; 93 I9). Log 3. -/
opaque Config.drawIv : Nat → Block

/-- The n-th `unspecified` word drawn (00_scope.md R15; 10_state.md R26). Log 7. -/
opaque Config.freeWord : Nat → Word

/-- The n-th `unspecified` byte drawn (R15; 20_memory.md R55, R64). Log 5. -/
opaque Config.freeByte : Nat → Byte

/-- The byte that never-written offset `a` of a buffer shows to a command, drawn at the n-th reset (10_state.md R34; 93 I3). Log 4. -/
opaque Config.resetByte : Nat → Buf → Nat → Byte

/-- Which instantiation of the parameter `BC` the block is fitted with. `xor8` and `add8` are the two test ciphers of 95_test_vectors.md; `external` is the uninterpreted pair `Config.bcEnc`, `Config.bcDec`. Log 2. -/
inductive Cipher where
  | external
  | xor8
  | add8
  deriving DecidableEq, Repr

/-- The parameters that are fixed for a whole run and that no rule writes (10_state.md R37): the capacity of the input buffers and the cipher primitive. -/
structure Setup where
  /-- `CAP` (00_scope.md R7): at most 2^32 - 17. -/
  cap    : Fin 4294967280
  cipher : Cipher
  deriving DecidableEq, Repr

end Sys2Proof
end

