-- ==== Sys2Proof/Machine/Turns.lean ====
section
/-! DEFINITION. What the outside of the block does: the registers' names (10_state.md R21), the host's actions (20_memory.md R52 to R57) and the turns of host, engine and reset input (00_scope.md R16). -/

namespace Sys2Proof.Machine

/-- The twelve registers, in the order of their numbers 0 to 11 (10_state.md R21). -/
inductive Reg where
  | cmd
  | status
  | aw
  | ah
  | bw
  | bh
  | alen
  | key0
  | key1
  | ow
  | oh
  | olen
  deriving DecidableEq, Repr

/-- The byte of a host buffer write: a byte the host has, or the byte its last buffer read returned (30_encoding.md R91 `copyout`: "the byte read"). -/
inductive HostByte where
  | lit (v : Byte)
  | lastRead
  deriving DecidableEq, Repr

/-- One access of the host (20_memory.md R52 to R57). A register access says its byte offset in `REG` and its width in bits, so that the accesses R54 refuses can be said too. -/
inductive HostAction where
  | regRead  (offset width : Nat)
  | regWrite (offset width : Nat) (v : Word)
  | bufRead  (b : Buf) (a : Nat)
  | bufWrite (b : Buf) (a : Nat) (v : HostByte)
  deriving DecidableEq, Repr

/-- One turn of the outside, in the one total order of 20_memory.md R66. Log 8. -/
inductive Turn where
  /-- The host performs an action. -/
  | host (x : HostAction)
  /-- The host writes the word to `CMD` and the engine completes a legal command before anything else happens: the fusion 30_encoding.md R86 allows. Log 9. -/
  | command (w : Word)
  /-- The engine takes its step, if one is enabled (30_encoding.md R86). -/
  | engine
  /-- The reset input (70_reset_and_hazards.md R200, R201). -/
  | reset
  deriving DecidableEq, Repr

end Sys2Proof.Machine
end

