-- ==== Sys2Proof/Machine/State.lean ====
section
/-! DEFINITION. The state of the block (10_state.md R20 to R38), the reasons a step can stop, and the state after reset (R38). -/

namespace Sys2Proof.Machine

/-- Why the machine stops with a fault. The errors of 60_exceptions.md are next states and stand in STATUS, not here. -/
inductive Fault where
  /-- Raised by an engine read outside the capacity of its buffer: `MemRead` is defined only inside (00_scope.md R13). Safe; it is never raised, as 20_memory.md R72 says. Log 17. -/
  | engineReadOutOfRange (b : Buf)
  /-- Raised by an engine write outside the capacity of `OUT`: `MemWrite` is defined only inside (R13). Safe; it is never raised (R72). Log 17. -/
  | engineWriteOutOfRange
  deriving DecidableEq, Repr

/-- What the model gives no meaning (00_scope.md R14, 60_exceptions.md R185). All safe. -/
inductive Refusal where
  /-- Raised by an arm of `exec` whose command has no meaning yet. Safe. -/
  | notModelled (mnemonic : String)
  /-- Raised by any host action but the read of STATUS while BUSY = 1 (20_memory.md R58). Safe. -/
  | accessWhileBusy
  /-- Raised by a register access that is not 32 bits wide (20_memory.md R54). Safe. -/
  | registerWidth
  /-- Raised by a register access at an offset that is not a multiple of 4 (R54). Safe. -/
  | registerMisaligned
  /-- Raised by a register access at an offset of 0x30 or more (R54). Safe. -/
  | registerOffset
  /-- Raised by a buffer access at or beyond the buffer's capacity (R55, R56, R57). Safe. -/
  | bufferOffset
  /-- Raised by a busy engine with no latched command: no reachable state has one (10_state.md R35). Safe. Log 18. -/
  | noCommandLatched
  deriving DecidableEq, Repr

/-- The known bytes of a buffer: offset and byte, offsets strictly rising. An offset that is not listed holds an `unspecified` byte (00_scope.md R15; 10_state.md R34; 20_memory.md R64). Logs 4, 5, 6. -/
abbrev Memory := List Host.Cell

/-- The state of the block: 10_state.md R20, then the model's own fields. `CMD` has no storage (R24). -/
structure State where
  /-- STATUS (R25). -/
  status : Word
  /-- Width of the image in IN_A (R22). -/
  aw : Word
  /-- Height of the image in IN_A (R22). -/
  ah : Word
  /-- Width of the image in IN_B (R22). -/
  bw : Word
  /-- Height of the image in IN_B (R22). -/
  bh : Word
  /-- Length of the byte string in IN_A (R22). -/
  alen : Word
  /-- Key bytes 0 to 3 (R23). -/
  key0 : Word
  /-- Key bytes 4 to 7 (R23). -/
  key1 : Word
  /-- Width of the image in OUT, or 0 (R26). -/
  ow : Word
  /-- Height of the image in OUT, or 0 (R26). -/
  oh : Word
  /-- Length of the valid content of OUT (R26). -/
  olen : Word
  /-- Buffer IN_A (R32). -/
  inA : Memory
  /-- Buffer IN_B (R32). -/
  inB : Memory
  /-- Buffer OUT (R32). -/
  out : Memory
  /-- The opcode latched at issue; none whenever BUSY = 0 (R35). -/
  curOp : Option Instr
  /-- MODEL: CAP and BC, which no step changes (R37). Logs 1, 2. -/
  setup : Setup
  /-- MODEL: what the outside does next, oldest first (00_scope.md R16, 20_memory.md R66). Log 8. -/
  turns : List Turn
  /-- MODEL: the random source's answers to the coming draws (41_cipher_envelope.md R141). Log 3. -/
  ivAnswers : List Block
  /-- MODEL: how many draws `Config.drawIv` has answered. Log 3. -/
  ivDraws : Nat
  /-- MODEL: how many `unspecified` words and bytes have been drawn (00_scope.md R15). Logs 5, 7. -/
  freeDraws : Nat
  /-- MODEL: how many resets there have been since the first, which name the draws of R34. Log 4. -/
  resets : Nat
  /-- MODEL: the word the host's last register read returned (20_memory.md R52). Log 11. -/
  readWord : Word
  /-- MODEL: the byte the host's last buffer read returned (R55). Log 11. -/
  readByte : Byte
  deriving DecidableEq, Repr

/-- 10_state.md R38, 70_reset_and_hazards.md R200: every register 0, no command latched, every buffer byte `unspecified`. The model's own fields: log 10. -/
def State.reset : State where
  status := 0
  aw := 0
  ah := 0
  bw := 0
  bh := 0
  alen := 0
  key0 := 0
  key1 := 0
  ow := 0
  oh := 0
  olen := 0
  inA := []
  inB := []
  out := []
  curOp := none
  setup := { cap := Config.cap, cipher := .external }
  turns := []
  ivAnswers := []
  ivDraws := 0
  freeDraws := 0
  resets := 0
  readWord := 0
  readByte := 0

end Sys2Proof.Machine
end

