-- ==== Sys2Proof/Machine/Flags.lean ====
section
/-! DEFINITION. The status register: its fields and the words it takes (10_state.md R25, R31), and the error codes (60_exceptions.md R170). -/

namespace Sys2Proof.Machine

/-- The error causes (60_exceptions.md R170). -/
inductive ErrorCode where
  | dimension
  | format
  | padding
  | capacity
  | illegalCommand
  deriving DecidableEq, Repr

/-- The number of an error in `STATUS.ECODE` (R170). -/
def ErrorCode.code : ErrorCode → BitVec 4
  | .dimension => 1
  | .format => 2
  | .padding => 3
  | .capacity => 4
  | .illegalCommand => 5

/-- `STATUS.BUSY`, bit 0 (10_state.md R25). -/
def statusBusy (st : Word) : Bool := st.getLsbD 0

/-- `STATUS.DONE`, bit 1 (R25). -/
def statusDone (st : Word) : Bool := st.getLsbD 1

/-- `STATUS.ERR`, bit 2 (R25). -/
def statusErr (st : Word) : Bool := st.getLsbD 2

/-- `STATUS.ECODE`, bits 7:4 (R25). -/
def statusEcode (st : Word) : BitVec 4 := st.extractLsb' 4 4

/-- STATUS from issue to completion: BUSY (30_encoding.md R85). -/
def busyStatus : Word := 0x00000001

/-- STATUS after a completion without error: DONE (30_encoding.md R86). -/
def doneStatus : Word := 0x00000002

/-- STATUS after an error: DONE, ERR and the code, `0x00000006 | (e << 4)` (30_encoding.md R86, 60_exceptions.md R178). -/
def errorStatus (e : ErrorCode) : Word := 0x00000006 ||| (e.code.setWidth 32 <<< 4)

/-- A command is in flight (R25): the engine's step is enabled (30_encoding.md R86). -/
def State.busy (s : State) : Bool := statusBusy s.status

/-- The eight values STATUS takes (R25). -/
def legalStatus (st : Word) : Bool :=
  [0x00000000#32, 0x00000001#32, 0x00000002#32, 0x00000016#32, 0x00000026#32, 0x00000036#32, 0x00000046#32,
    0x00000056#32].contains st

end Sys2Proof.Machine
end

