-- ==== Sys2Proof/Machine/Ops.lean ====
section
/-! DEFINITION. The operations over buffers and registers, the draws, the cipher primitive, the issue of a command, the delivery of a result and the entry of an error. -/

namespace Sys2Proof.Machine

/-! ## Buffers (10_state.md R32 to R34) -/

/-- The known byte at an offset; none where the byte is `unspecified`. -/
def Memory.get? : Memory → Nat → Option Byte
  | [], _ => none
  | (k, v) :: rest, a => if k = a then some v else Memory.get? rest a

/-- The buffer in which the byte at offset `a` is `v` (20_memory.md R56). -/
def Memory.put : Memory → Nat → Byte → Memory
  | [], a, v => [(a, v)]
  | (k, w) :: rest, a, v =>
    if a < k then (a, v) :: (k, w) :: rest
    else if a = k then (a, v) :: rest
    else (k, w) :: Memory.put rest a v

/-- The buffer that holds the bytes from offset `a` on and `unspecified` bytes elsewhere (30_encoding.md R86: `MemWrite`, then the rest unspecified). -/
def Memory.ofBytes : Nat → List Byte → Memory
  | _, [] => []
  | a, b :: bs => (a, b) :: Memory.ofBytes (a + 1) bs

/-- The canonical form: offsets strictly rising. An unlisted offset has no known byte, so no entry can equal what it reads as. -/
def Memory.wf : Memory → Bool
  | [] => true
  | [_] => true
  | x :: y :: rest => decide (x.1 < y.1) && Memory.wf (y :: rest)

/-- The contents of a buffer by its name (20_memory.md R50). -/
def State.buffer (s : State) : Buf → Memory
  | .inA => s.inA
  | .inB => s.inB
  | .out => s.out

/-- `n <= cap`, written so that `n = 0` needs no value of `cap` (10_state.md R32; 60_exceptions.md R176). -/
def withinCap (cap n : Nat) : Bool :=
  match n with
  | 0 => true
  | k + 1 => decide (k < cap)

/-- The first `n` bytes of a buffer exist: IN_A and IN_B hold CAP bytes, OUT holds CAP + 16 (R32). -/
def State.holds (s : State) : Buf → Nat → Bool
  | .inA, n => withinCap s.setup.cap.val n
  | .inB, n => withinCap s.setup.cap.val n
  | .out, n => withinCap s.setup.cap.val (n - 16)

/-- The byte a command reads at an offset: the known byte, or for a byte the host has never written the draw fixed at reset (10_state.md R34; 93 I3). Log 4. -/
def State.byteAt (s : State) (b : Buf) (a : Nat) : Byte :=
  match Memory.get? (s.buffer b) a with
  | some v => v
  | none => Config.resetByte s.resets b a

/-! ## Registers (10_state.md R21 to R28) -/

/-- The number of a register (R21). -/
def Reg.number : Reg → Nat
  | .cmd => 0
  | .status => 1
  | .aw => 2
  | .ah => 3
  | .bw => 4
  | .bh => 5
  | .alen => 6
  | .key0 => 7
  | .key1 => 8
  | .ow => 9
  | .oh => 10
  | .olen => 11

/-- The byte offset of a register in the space `REG` (R21; 20_memory.md R51). -/
def Reg.offset (r : Reg) : Nat := 4 * r.number

/-- The register with a number, if there is one (R21). -/
def Reg.ofNumber? : Nat → Option Reg
  | 0 => some .cmd
  | 1 => some .status
  | 2 => some .aw
  | 3 => some .ah
  | 4 => some .bw
  | 5 => some .bh
  | 6 => some .alen
  | 7 => some .key0
  | 8 => some .key1
  | 9 => some .ow
  | 10 => some .oh
  | 11 => some .olen
  | _ => none

/-- The value the host reads from a register: `CMD` reads 0, every other its current value (R24; 20_memory.md R52). -/
def State.readReg (s : State) : Reg → Word
  | .cmd => 0
  | .status => s.status
  | .aw => s.aw
  | .ah => s.ah
  | .bw => s.bw
  | .bh => s.bh
  | .alen => s.alen
  | .key0 => s.key0
  | .key1 => s.key1
  | .ow => s.ow
  | .oh => s.oh
  | .olen => s.olen

/-- The storing of a word by the host: the seven RW registers take it, a read-only register keeps its value (R27; 20_memory.md R53), and `CMD` has no storage (R24). -/
def State.writeReg (s : State) (r : Reg) (v : Word) : State :=
  match r with
  | .cmd => s
  | .status => s
  | .aw => { s with aw := v }
  | .ah => { s with ah := v }
  | .bw => { s with bw := v }
  | .bh => { s with bh := v }
  | .alen => { s with alen := v }
  | .key0 => { s with key0 := v }
  | .key1 => { s with key1 := v }
  | .ow => s
  | .oh => s
  | .olen => s

/-! ## The random source (41_cipher_envelope.md R141) -/

/-- `draw_iv()`: the answer the random source has ready, or else its next uninterpreted one. Log 3. -/
def State.nextIv (s : State) : Block :=
  match s.ivAnswers with
  | iv :: _ => iv
  | [] => Config.drawIv s.ivDraws

/-- The draw is taken: each draw has its own answer. -/
def State.afterIvDraw (s : State) : State :=
  match s.ivAnswers with
  | _ :: rest => { s with ivAnswers := rest }
  | [] => { s with ivDraws := s.ivDraws + 1 }

/-! ## The cipher primitive (00_scope.md R7 `BC`; 95_test_vectors.md) -/

/-- A byte operation on two blocks, byte by byte (00_scope.md R11). -/
def Block.zipWith (f : Byte → Byte → Byte) (x y : Block) : Block :=
  ⟨f x.b0 y.b0, f x.b1 y.b1, f x.b2 y.b2, f x.b3 y.b3, f x.b4 y.b4, f x.b5 y.b5, f x.b6 y.b6, f x.b7 y.b7⟩

/-- `s XOR t` of two blocks (R11). -/
def Block.xor (x y : Block) : Block := Block.zipWith (· ^^^ ·) x y

/-- `BC_ENC(k, b)`. -/
def bcEnc : Cipher → Key → Block → Block
  | .external, k, b => Config.bcEnc k b
  | .xor8, k, b => Block.xor b k
  | .add8, k, b => Block.zipWith (· + ·) b k

/-- `BC_DEC(k, b)`. -/
def bcDec : Cipher → Key → Block → Block
  | .external, k, b => Config.bcDec k b
  | .xor8, k, b => Block.xor b k
  | .add8, k, b => Block.zipWith (· - ·) b k

/-! ## Issue, completion and error entry (30_encoding.md R84 to R86; 60_exceptions.md R178) -/

/-- The issue of a legal command (R85): BUSY is set, DONE, ERR and ECODE are cleared, the opcode is latched, and OW, OH, OLEN become `unspecified` (log 7). It is also the nearest thing to a return from an error (60_exceptions.md R180). -/
def issue (i : Instr) (s : State) : State :=
  { s with
    status := busyStatus
    curOp := some i
    ow := Config.freeWord s.freeDraws
    oh := Config.freeWord (s.freeDraws + 1)
    olen := Config.freeWord (s.freeDraws + 2)
    freeDraws := s.freeDraws + 3 }

/-- The entry of an error (60_exceptions.md R178), the one operation for an error of a command (R86) and for an illegal command word (R84). Every byte of OUT becomes `unspecified`. -/
def raiseError (e : ErrorCode) (s : State) : State :=
  { s with status := errorStatus e, ow := 0, oh := 0, olen := 0, out := [], curOp := none }

/-- A completion without error (R86): the bytes stand in OUT from offset 0 and every other byte of OUT is `unspecified` (20_memory.md R64). -/
def complete (ow oh : Nat) (bytes : List Byte) (s : State) : State :=
  { s with
    status := doneStatus
    ow := BitVec.ofNat 32 ow
    oh := BitVec.ofNat 32 oh
    olen := BitVec.ofNat 32 bytes.length
    out := Memory.ofBytes 0 bytes
    curOp := none }

/-- The step that delivers a result `(ow, oh, olen, bytes)` (R86); `MemWrite` is defined only inside OUT (00_scope.md R13). -/
def deliver (ow oh : Nat) (bytes : List Byte) (s : State) : Host.Outcome State Fault Refusal :=
  if s.holds .out bytes.length then .next (complete ow oh bytes s) else .fault .engineWriteOutOfRange

/-- The write of a word to `CMD` while BUSY = 0 (R84, R85). -/
def issueCommand (w : Word) (s : State) : State :=
  match decode w with
  | .ok i => issue i s
  | .error _ => raiseError .illegalCommand s

end Sys2Proof.Machine
end

