-- ==== Sys2Proof/Machine/Operands.lean ====
section
/-! DEFINITION. The operand forms of the four commands: the operand registers as numbers, the key, images and byte strings in buffers (10_state.md R22, R23; 20_memory.md R60, R61, R72; 00_scope.md R10 to R12). -/

namespace Sys2Proof.Machine

/-- Byte `i` of a register, bits `8*i + 7 : 8*i` (10_state.md R23). -/
def wordByte (w : Word) (i : Nat) : Byte := w.extractLsb' (8 * i) 8

/-- The key the host supplies in KEY0 and KEY1, key byte 0 in the lowest bits of KEY0 (R23). -/
def State.key (s : State) : Key :=
  ⟨wordByte s.key0 0, wordByte s.key0 1, wordByte s.key0 2, wordByte s.key0 3,
    wordByte s.key1 0, wordByte s.key1 1, wordByte s.key1 2, wordByte s.key1 3⟩

/-- A RasterImage `(W, H, px)` (00_scope.md R12): `px x y c` is channel `c` of the pixel in column `x`, row `y`. -/
structure Image where
  w  : Nat
  h  : Nat
  px : Nat → Nat → Nat → Byte

/-- The offset of a byte of an image of width `w` (20_memory.md R60). -/
def off (w x y c : Nat) : Nat := 3 * (y * w + x) + c

/-- How many bytes an image occupies (R60), in unbounded arithmetic (00_scope.md R10). -/
def imageBytes (w h : Nat) : Nat := 3 * w * h

/-- `img(S, W, H)` (R60). -/
def State.img (s : State) (b : Buf) (w h : Nat) : Image where
  w := w
  h := h
  px := fun x y c => s.byteAt b (off w x y c)

/-- The image a command reads: every `MemRead` of it is inside the buffer, or the read has no meaning (00_scope.md R13). -/
def State.readImage (s : State) (b : Buf) (w h : Nat) : Option Image :=
  if s.holds b (imageBytes w h) then some (s.img b w h) else none

/-- The byte string `S[0 .. n]` (20_memory.md R61). -/
def State.bytesOf (s : State) (b : Buf) (n : Nat) : List Byte := (List.range n).map (s.byteAt b)

/-- `MemRead(S, 0, n)` (00_scope.md R13). -/
def State.readBytes (s : State) (b : Buf) (n : Nat) : Option (List Byte) :=
  if s.holds b n then some (s.bytesOf b n) else none

/-- The bytes of an image in buffer order: rows from `y = 0`, within a row pixels from `x = 0`, within a pixel R, G, B (R60). -/
def layout (p : Image) : List Byte :=
  (List.range p.h).flatMap fun y => (List.range p.w).flatMap fun x => (List.range 3).map fun c => p.px x y c

/-- The eight bytes of a block (00_scope.md R11). -/
def Block.toList (b : Block) : List Byte := [b.b0, b.b1, b.b2, b.b3, b.b4, b.b5, b.b6, b.b7]

/-- The bytes of a sequence of blocks. -/
def flatten (bs : List Block) : List Byte := bs.flatMap Block.toList

/-- The blocks of a byte sequence (41_cipher_envelope.md R132): its first 8 bytes, the next 8, and so on. -/
def toBlocks : List Byte → List Block
  | b0 :: b1 :: b2 :: b3 :: b4 :: b5 :: b6 :: b7 :: rest => ⟨b0, b1, b2, b3, b4, b5, b6, b7⟩ :: toBlocks rest
  | _ => []

end Sys2Proof.Machine
end

