-- ==== Sys2Proof/Machine/CipherEnvelope.lean ====
section
/-! DEFINITION. The cipher envelope (41_cipher_envelope.md): the functions of R130 to R138 and the commands ENVPAD (R140) and ENVUNPAD (R150). -/

namespace Sys2Proof.Machine

/-- R131: the pad count, 1 to 8. -/
def padCount (len : Nat) : Nat := 8 - len % 8

/-- R131: `n` filler bytes of value `n` are appended, never none. -/
def pad (b : List Byte) : List Byte :=
  b ++ List.replicate (padCount b.length) (BitVec.ofNat 8 (padCount b.length))

/-- R133: each block is combined with the ciphertext block before it, the first with the IV. -/
def cbcEnc (enc : Block → Block) : Block → List Block → List Block
  | _, [] => []
  | prev, p :: ps => enc (Block.xor p prev) :: cbcEnc enc (enc (Block.xor p prev)) ps

/-- R136: each decrypted block is combined with the ciphertext block before it, the first with the IV. -/
def cbcDec (dec : Block → Block) : Block → List Block → List Block
  | _, [] => []
  | prev, c :: cs => Block.xor (dec c) prev :: cbcDec dec c cs

/-- R134: `iv || cbc_enc(K, iv, pad(B))`. -/
def envelopeEnc (c : Cipher) (b : List Byte) (k : Key) (iv : Block) : List Byte :=
  Block.toList iv ++ flatten (cbcEnc (bcEnc c k) iv (toBlocks (pad b)))

/-- R135: the length test of a blob. -/
def formatOk (len : Nat) : Bool := decide (16 ≤ len) && decide ((len - 8) % 8 = 0)

/-- The decrypted bytes of a blob: the IV is its first 8 bytes, the ciphertext the rest (R138). -/
def decryptBlob (c : Cipher) (k : Key) (blob : List Byte) : List Byte :=
  match toBlocks blob with
  | [] => []
  | iv :: ct => flatten (cbcDec (bcDec c k) iv ct)

/-- R137: the pad count found, the value of the last byte. -/
def padFound (p : List Byte) : Nat := (p.getLastD 0).toNat

/-- R137: the count is in range and all of the last `n` bytes equal `n`. -/
def padOk (p : List Byte) : Bool :=
  decide (1 ≤ padFound p) && decide (padFound p ≤ 8) &&
    (p.drop (p.length - padFound p)).all fun b => b.toNat == padFound p

/-- R137: the bytes before the padding. -/
def unpad (p : List Byte) : List Byte := p.take (p.length - padFound p)

/-- R138: the length is tested before anything is decrypted, the padding after everything is. -/
def envelopeDec (c : Cipher) (blob : List Byte) (k : Key) : Except ErrorCode (List Byte) :=
  if formatOk blob.length = false then .error .format
  else if padOk (decryptBlob c k blob) = false then .error .padding
  else .ok (unpad (decryptBlob c k blob))

/-- ENVPAD (R140), the completion step of the command (30_encoding.md R86). A completion that ends in CapacityError takes no draw (R141). -/
def execEnvpad (s : State) : Host.Outcome State Fault Refusal :=
  let l := s.alen.toNat
  if s.holds .inA l = false then .next (raiseError .capacity s)
  else
    match s.readBytes .inA l with
    | some b => deliver 0 0 (envelopeEnc s.setup.cipher b s.key s.nextIv) s.afterIvDraw
    | none => .fault (.engineReadOutOfRange .inA)

/-- ENVUNPAD (R150), the completion step of the command (30_encoding.md R86): FormatError, then CapacityError, then PaddingError (60_exceptions.md R175). -/
def execEnvunpad (s : State) : Host.Outcome State Fault Refusal :=
  let a := s.alen.toNat
  if formatOk a = false then .next (raiseError .format s)
  else if s.holds .inA a = false then .next (raiseError .capacity s)
  else
    match s.readBytes .inA a with
    | some blob =>
      if padOk (decryptBlob s.setup.cipher s.key blob) = false then .next (raiseError .padding s)
      else deliver 0 0 (unpad (decryptBlob s.setup.cipher s.key blob)) s
    | none => .fault (.engineReadOutOfRange .inA)

end Sys2Proof.Machine
end

