-- ==== Sys2Proof/Machine/PixelCodec.lean ====
section
/-! DEFINITION. The pixel codec (40_pixel_codec.md): the functions of R100 to R108 and the commands MERGE (R110) and UNMERGE (R115). -/

namespace Sys2Proof.Machine

/-- R100: the carrier's upper nibble over the payload's upper nibble. -/
def mergeByte (cb pb : Byte) : Byte := (cb &&& 0xF0#8) ||| (pb >>> 4)

/-- R101: the payload byte at a carrier coordinate, 0 outside the payload's extent. -/
def pay (p : Image) (x y c : Nat) : Byte := if x < p.w ∧ y < p.h then p.px x y c else 0

/-- R102: the merged image has the carrier's dimensions. -/
def mergeImg (c p : Image) : Image where
  w := c.w
  h := c.h
  px := fun x y ch => mergeByte (c.px x y ch) (pay p x y ch)

/-- R104: the embedded nibble promoted to the upper nibble. -/
def unmergeByte (mb : Byte) : Byte := (mb &&& 0x0F#8) <<< 4

/-- R105: the uncropped reconstruction. -/
def recon (m : Image) : Image where
  w := m.w
  h := m.h
  px := fun x y c => unmergeByte (m.px x y c)

/-- R106: the reconstructed pixel is not exactly black. -/
def nonblack (m : Image) (x y : Nat) : Bool :=
  !((recon m).px x y 0 == 0 && (recon m).px x y 1 == 0 && (recon m).px x y 2 == 0)

/-- The scan order: outer loop over x, inner over y (R107; 90_conflicts.md C6). -/
def scanOrder (w h : Nat) : List (Nat × Nat) :=
  (List.range w).flatMap fun x => (List.range h).map fun y => (x, y)

/-- R107, R115: the inferred size. The running extent starts at the full merged extent and is overwritten at every non-black pixel of the scan. -/
def extent (m : Image) : Nat × Nat :=
  (scanOrder m.w m.h).foldl (fun e p => if nonblack m p.1 p.2 then (p.1 + 1, p.2 + 1) else e) (m.w, m.h)

/-- R108: the rectangle from the origin to the exclusive corner `(ow, oh)`. -/
def crop (r : Image) (ow oh : Nat) : Image where
  w := ow
  h := oh
  px := r.px

/-- R108: the whole of unmerge. -/
def unmergeImg (m : Image) : Image := crop (recon m) (extent m).1 (extent m).2

/-- MERGE (R110), the completion step of the command (30_encoding.md R86). -/
def execMerge (s : State) : Host.Outcome State Fault Refusal :=
  let w := s.aw.toNat
  let h := s.ah.toNat
  let pw := s.bw.toNat
  let ph := s.bh.toNat
  if w < pw ∨ h < ph then .next (raiseError .dimension s)
  else if s.holds .inA (imageBytes w h) = false then .next (raiseError .capacity s)
  else
    match s.readImage .inA w h, s.readImage .inB pw ph with
    | some c, some p => deliver w h (layout (mergeImg c p)) s
    | none, _ => .fault (.engineReadOutOfRange .inA)
    | some _, none => .fault (.engineReadOutOfRange .inB)

/-- UNMERGE (R115), the completion step of the command (30_encoding.md R86). -/
def execUnmerge (s : State) : Host.Outcome State Fault Refusal :=
  let w := s.aw.toNat
  let h := s.ah.toNat
  if s.holds .inA (imageBytes w h) = false then .next (raiseError .capacity s)
  else
    match s.readImage .inA w h with
    | some m => deliver (extent m).1 (extent m).2 (layout (unmergeImg m)) s
    | none => .fault (.engineReadOutOfRange .inA)

end Sys2Proof.Machine
end

