-- ==== Sys2Proof/Machine/Dispatch.lean ====
section
/-! DEFINITION. One arm per command: what the engine's completion step does when that command is in flight (30_encoding.md R81 last column, R86). -/

namespace Sys2Proof.Machine

def exec (i : Instr) (s : State) : Host.Outcome State Fault Refusal :=
  match i with
  | .merge => Sys2Proof.Machine.execMerge s
  | .unmerge => Sys2Proof.Machine.execUnmerge s
  | .envpad => Sys2Proof.Machine.execEnvpad s
  | .envunpad => Sys2Proof.Machine.execEnvunpad s

end Sys2Proof.Machine
end

