-- ==== Sys2Proof/Machine/HostAccess.lean ====
section
/-! DEFINITION. The host's accesses (20_memory.md R51 to R59), each one indivisible step (R70). -/

namespace Sys2Proof.Machine

/-- The register a register access means: 32 bits wide, at a multiple of 4 below 0x30 (R51); any other access is refused (R54). -/
def regAt (offset width : Nat) : Except Refusal Reg :=
  if width ≠ 32 then .error .registerWidth
  else if offset % 4 ≠ 0 then .error .registerMisaligned
  else
    match Reg.ofNumber? (offset / 4) with
    | some r => .ok r
    | none => .error .registerOffset

/-- `HostRegRead` (R52): the word is returned and no state of the block changes. While BUSY = 1 only STATUS can be read (R58). -/
def hostRegRead (offset width : Nat) (s : State) : Host.Outcome State Fault Refusal :=
  match regAt offset width with
  | .error r => .refused r
  | .ok r =>
    if s.busy && r != .status then .refused .accessWhileBusy
    else .next { s with readWord := s.readReg r }

/-- `HostRegWrite` (R53): a write of `CMD` issues a command (30_encoding.md R85), a RW register takes the word, a read-only register keeps its value (10_state.md R27). -/
def hostRegWrite (offset width : Nat) (v : Word) (s : State) : Host.Outcome State Fault Refusal :=
  match regAt offset width with
  | .error r => .refused r
  | .ok r =>
    if s.busy then .refused .accessWhileBusy
    else if r = .cmd then .next (issueCommand v s)
    else .next (s.writeReg r v)

/-- `HostBufRead` (R55): the byte is returned; a read of an `unspecified` byte returns a fresh draw (93 I1 to I3). Log 5. -/
def hostBufRead (b : Buf) (a : Nat) (s : State) : Host.Outcome State Fault Refusal :=
  if s.busy then .refused .accessWhileBusy
  else if s.holds b (a + 1) = false then .refused .bufferOffset
  else
    match Memory.get? (s.buffer b) a with
    | some v => .next { s with readByte := v }
    | none => .next { s with readByte := Config.freeByte s.freeDraws, freeDraws := s.freeDraws + 1 }

/-- The byte a host buffer write carries (30_encoding.md R91 `copyout`). -/
def State.hostByte (s : State) : HostByte → Byte
  | .lit v => v
  | .lastRead => s.readByte

/-- `HostBufWrite` (R56, R57): the byte of IN_A or IN_B changes; OUT is read-only for the host. -/
def hostBufWrite (b : Buf) (a : Nat) (v : HostByte) (s : State) : Host.Outcome State Fault Refusal :=
  if s.busy then .refused .accessWhileBusy
  else if s.holds b (a + 1) = false then .refused .bufferOffset
  else
    match b with
    | .inA => .next { s with inA := Memory.put s.inA a (s.hostByte v) }
    | .inB => .next { s with inB := Memory.put s.inB a (s.hostByte v) }
    | .out => .next s

/-- One action of the host. -/
def hostAction (x : HostAction) (s : State) : Host.Outcome State Fault Refusal :=
  match x with
  | .regRead offset width => hostRegRead offset width s
  | .regWrite offset width v => hostRegWrite offset width v s
  | .bufRead b a => hostBufRead b a s
  | .bufWrite b a v => hostBufWrite b a v s

end Sys2Proof.Machine
end

