-- ==== Sys2Proof/Machine/Perform.lean ====
section
/-! DEFINITION. One turn of the outside: the engine's step (30_encoding.md R86), the fused command (R86), the reset input (70_reset_and_hazards.md R200, R201). -/

namespace Sys2Proof.Machine

/-- The engine's turn (30_encoding.md R86): enabled exactly when BUSY = 1, it completes the command in flight; an idle block waits (60_exceptions.md R192). -/
def engineTurn (s : State) : Host.Outcome State Fault Refusal :=
  if s.busy then
    match s.curOp with
    | some i => exec i s
    | none => .refused .noCommandLatched
  else .next s

/-- The write of a word to `CMD` with the completion fused to it (R86: "a model may fuse issue and completion of a legal command into one atomic step"). Log 9. -/
def fusedCommand (w : Word) (s : State) : Host.Outcome State Fault Refusal :=
  if s.busy then .refused .accessWhileBusy
  else
    match decode w with
    | .ok i => exec i (issue i s)
    | .error _ => .next (raiseError .illegalCommand s)

/-- Reset (70_reset_and_hazards.md R200), also while a command is in flight (R201). What lies outside the block goes on: the coming turns, the random source, the draws, the data the host has read. Log 16. -/
def resetBlock (s : State) : State :=
  { State.reset with
    setup := s.setup
    turns := s.turns
    ivAnswers := s.ivAnswers
    ivDraws := s.ivDraws
    freeDraws := s.freeDraws
    resets := s.resets + 1
    readWord := s.readWord
    readByte := s.readByte }

/-- One turn. -/
def performTurn (t : Turn) (s : State) : Host.Outcome State Fault Refusal :=
  match t with
  | .host x => hostAction x s
  | .command w => fusedCommand w s
  | .engine => engineTurn s
  | .reset => .next (resetBlock s)

/-- The next turn is taken off the list and performed. With no turn left the engine completes a command in flight and an idle block waits: no state is stuck (93, section 1; 30_encoding.md R92). Log 8. -/
def nextTurn (s : State) : Host.Outcome State Fault Refusal :=
  match s.turns with
  | [] => engineTurn s
  | t :: rest => performTurn t { s with turns := rest }

/-- The state in which the next step is the write of a command word to `CMD` with its completion: the write is the first pending turn and, as R85 asks of a state in which `CMD` may be written, no command is in flight. Log 9. -/
def placeCommand (w : Word) (s : State) : State :=
  if s.busy then { s with status := 0, curOp := none, turns := .command w :: s.turns }
  else { s with turns := .command w :: s.turns }

end Sys2Proof.Machine
end

