-- ==== Sys2Proof/Machine/Step.lean ====
section
/-! DEFINITION. One step of the machine: the next turn of the one total order of 20_memory.md R66. -/

namespace Sys2Proof.Machine

/-- One step (R66, R70). -/
def step (s : State) : Host.Outcome State Fault Refusal := nextTurn s

/-- `s` with the command word `w` of `nbits` bits where the next step takes its command from: the data of a `CMD` write (20_memory.md R68: "a command word is not fetched from memory but is the data of the `CMD` write itself"). Log 9. -/
def State.withFetchWord (s : State) (nbits w : Nat) : State :=
  placeCommand (BitVec.ofNat 32 (w % 2 ^ nbits)) s

end Sys2Proof.Machine
end

