-- ==== Sys2Proof/Machine/Script.lean ====
section
/-! DEFINITION. The host script (30_encoding.md R90, R91): its lines and the turns each stands for. -/

namespace Sys2Proof.Machine

/-- A line of the host script. -/
inductive ScriptLine where
  /-- `wr REG, v` -/
  | wr (r : Reg) (v : Word)
  /-- `rd REG` -/
  | rd (r : Reg)
  /-- `wb S[a], v` -/
  | wb (b : Buf) (a : Nat) (v : Byte)
  /-- `rb S[a]` -/
  | rb (b : Buf) (a : Nat)
  /-- `merge` -/
  | merge
  /-- `unmerge` -/
  | unmerge
  /-- `envpad` -/
  | envpad
  /-- `envunpad` -/
  | envunpad
  /-- `wait`, with the number of reads of STATUS that come before the engine's completion step (93 I16: any finite number). -/
  | wait (polls : Nat)
  /-- `ldimg S, W, H, p(0,0) p(1,0) ...`: the pixels row by row. -/
  | ldimg (b : Buf) (w h : Nat) (pixels : List (Byte × Byte × Byte))
  /-- `ldbytes S, b0 b1 ...` -/
  | ldbytes (b : Buf) (bytes : List Byte)
  /-- `key b0 b1 ... b7` -/
  | key (k : Key)
  /-- `copyout S, n` -/
  | copyout (b : Buf) (n : Nat)
  deriving DecidableEq, Repr

/-- `wr REG, v`: `HostRegWrite(number of REG, v)`. -/
def wrTurn (r : Reg) (v : Word) : Turn := .host (.regWrite r.offset 32 v)

/-- `rd REG`: `HostRegRead(number of REG)`. -/
def rdTurn (r : Reg) : Turn := .host (.regRead r.offset 32)

/-- `wb S[a], v`: `HostBufWrite(S, a, v)`. -/
def wbTurn (b : Buf) (a : Nat) (v : Byte) : Turn := .host (.bufWrite b a (.lit v))

/-- `rb S[a]`: `HostBufRead(S, a)`. -/
def rbTurn (b : Buf) (a : Nat) : Turn := .host (.bufRead b a)

/-- `wb S[a], b0`; `wb S[a+1], b1`; and so on. -/
def loadTurns (b : Buf) : Nat → List Byte → List Turn
  | _, [] => []
  | a, v :: vs => wbTurn b a v :: loadTurns b (a + 1) vs

/-- A word of four bytes, the first in the lowest bits (R91 `key`; 10_state.md R23). -/
def packWord (b0 b1 b2 b3 : Byte) : Word := b3 ++ b2 ++ b1 ++ b0

/-- The expansion of a line into turns (R90, R91). -/
def ScriptLine.turns : ScriptLine → List Turn
  | .wr r v => [wrTurn r v]
  | .rd r => [rdTurn r]
  | .wb b a v => [wbTurn b a v]
  | .rb b a => [rbTurn b a]
  | .merge => [wrTurn .cmd (encode .merge)]
  | .unmerge => [wrTurn .cmd (encode .unmerge)]
  | .envpad => [wrTurn .cmd (encode .envpad)]
  | .envunpad => [wrTurn .cmd (encode .envunpad)]
  | .wait polls => List.replicate polls (rdTurn .status) ++ [.engine, rdTurn .status]
  | .ldimg b w h pixels => loadTurns b 0 ((pixels.take (w * h)).flatMap fun p => [p.1, p.2.1, p.2.2])
  | .ldbytes b bytes => loadTurns b 0 bytes
  | .key k => [wrTurn .key0 (packWord k.b0 k.b1 k.b2 k.b3), wrTurn .key1 (packWord k.b4 k.b5 k.b6 k.b7)]
  | .copyout b n => (List.range n).flatMap fun i => [rbTurn .out i, .host (.bufWrite b i .lastRead)]

/-- The turns of a whole script. -/
def scriptTurns (lines : List ScriptLine) : List Turn := lines.flatMap ScriptLine.turns

end Sys2Proof.Machine
end

