-- ==== Sys2Proof/Safety.lean ====
section
/-! DEFINITION. What a good state is, and the words the claims use: the invariant of the block, the assumption on the cipher, the inputs of a command, byte strings seen as blocks. -/

namespace Sys2Proof.Machine

/-- The invariant of the block. -/
structure Inv (s : State) : Prop where
  /-- STATUS takes only the eight values of 10_state.md R25. -/
  status_legal : legalStatus s.status = true
  /-- An opcode is latched exactly while BUSY = 1 (R35). -/
  latched_iff_busy : s.curOp.isSome = s.busy
  /-- The three buffers have their canonical form. -/
  inA_wf : Memory.wf s.inA = true
  inB_wf : Memory.wf s.inB = true
  out_wf : Memory.wf s.out = true
  /-- No known byte lies outside its buffer (R32). -/
  inA_inside : ∀ x ∈ s.inA, x.1 < s.setup.cap.val
  inB_inside : ∀ x ∈ s.inB, x.1 < s.setup.cap.val
  out_inside : ∀ x ∈ s.out, x.1 < s.setup.cap.val + 16
  /-- In an idle block the known bytes of OUT are exactly `OUT[0 .. OLEN]` (R26; 20_memory.md R63, R64). -/
  out_is_result : s.busy = false → s.out.map Prod.fst = List.range s.olen.toNat
  /-- Without a completed result the result registers are 0 (R26, R38). -/
  no_result : s.busy = false → s.status ≠ doneStatus → s.ow = 0 ∧ s.oh = 0 ∧ s.olen = 0

/-- `BC_INV` (00_scope.md R7): decryption undoes encryption under every key. -/
def BcInv (c : Cipher) : Prop := ∀ (k : Key) (b : Block), bcDec c k (bcEnc c k b) = b

/-- The byte of a buffer at an offset where it is known. -/
def knownByte (m : Memory) (a : Nat) : Byte := (Memory.get? m a).getD 0

/-- The `i`-th block, counted from 0, of a byte string given by its bytes (41_cipher_envelope.md R132). -/
def blockOf (f : Nat → Byte) (i : Nat) : Block :=
  ⟨f (8 * i), f (8 * i + 1), f (8 * i + 2), f (8 * i + 3), f (8 * i + 4), f (8 * i + 5), f (8 * i + 6), f (8 * i + 7)⟩

/-- The bytes of the padded plaintext of ENVPAD: the plaintext, then bytes whose value is the pad count (R131). -/
def paddedByte (s : State) (a : Nat) : Byte :=
  if a < s.alen.toNat then s.byteAt .inA a else BitVec.ofNat 8 (8 - s.alen.toNat % 8)

/-- Two states give a command the same inputs (10_state.md R36): the parameters, the operand registers it reads (R22), the bytes of its input region (20_memory.md R62), and for ENVPAD the drawn IV. -/
def SameInputs (i : Instr) (s s' : State) : Prop :=
  s.setup = s'.setup ∧
  match i with
  | .merge =>
    s.aw = s'.aw ∧ s.ah = s'.ah ∧ s.bw = s'.bw ∧ s.bh = s'.bh ∧
    (∀ a, a < 3 * s.aw.toNat * s.ah.toNat → s.byteAt .inA a = s'.byteAt .inA a) ∧
    (∀ a, a < 3 * s.bw.toNat * s.bh.toNat → s.byteAt .inB a = s'.byteAt .inB a)
  | .unmerge =>
    s.aw = s'.aw ∧ s.ah = s'.ah ∧
    (∀ a, a < 3 * s.aw.toNat * s.ah.toNat → s.byteAt .inA a = s'.byteAt .inA a)
  | .envpad =>
    s.alen = s'.alen ∧ s.key0 = s'.key0 ∧ s.key1 = s'.key1 ∧ s.nextIv = s'.nextIv ∧
    (∀ a, a < s.alen.toNat → s.byteAt .inA a = s'.byteAt .inA a)
  | .envunpad =>
    s.alen = s'.alen ∧ s.key0 = s'.key0 ∧ s.key1 = s'.key1 ∧
    (∀ a, a < s.alen.toNat → s.byteAt .inA a = s'.byteAt .inA a)

/-- The results of a command as the host can see them (R36): STATUS, OW, OH, OLEN and OUT. -/
def SameResults (t t' : State) : Prop :=
  t.status = t'.status ∧ t.ow = t'.ow ∧ t.oh = t'.oh ∧ t.olen = t'.olen ∧ t.out = t'.out

/-- A merged pixel that does not reconstruct to black: some channel has a non-zero lower nibble (40_pixel_codec.md R106). -/
def NonblackAt (s : State) (x y : Nat) : Prop :=
  ∃ c, c < 3 ∧ s.byteAt .inA (3 * (y * s.aw.toNat + x) + c) &&& 0x0F#8 ≠ 0

/-- The size that UNMERGE infers from the image in IN_A (R107): the full extent when no pixel is non-black; else the last non-black pixel in the scan with x outer and y inner is the bottom right one. -/
def InferredExtent (s : State) (ow oh : Nat) : Prop :=
  ((∀ x y, x < s.aw.toNat → y < s.ah.toNat → ¬ NonblackAt s x y) ∧ ow = s.aw.toNat ∧ oh = s.ah.toNat) ∨
  ∃ xs ys, xs < s.aw.toNat ∧ ys < s.ah.toNat ∧ NonblackAt s xs ys ∧
    (∀ x y, x < s.aw.toNat → y < s.ah.toNat → NonblackAt s x y → x < xs ∨ (x = xs ∧ y ≤ ys)) ∧
    ow = xs + 1 ∧ oh = ys + 1

/-- The payload byte that MERGE embeds at a carrier coordinate (R101). -/
def payloadByte (s : State) (x y c : Nat) : Byte :=
  if x < s.bw.toNat ∧ y < s.bh.toNat then s.byteAt .inB (3 * (y * s.bw.toNat + x) + c) else 0

/-- The bytes `p` end in `n` filler bytes of value `n`, `1 <= n <= 8` (41_cipher_envelope.md R137). -/
def EndsInPadding (p : List Byte) (n : Nat) : Prop :=
  1 ≤ n ∧ n ≤ 8 ∧ ∀ a, p.length - n ≤ a → a < p.length → p[a]? = some (BitVec.ofNat 8 n)

/-- The state after an error with status word `st` (60_exceptions.md R178): nothing else changes, and no byte of OUT is known. -/
def afterError (st : Word) (s : State) : State :=
  { s with status := st, ow := 0, oh := 0, olen := 0, out := [], curOp := none }

end Sys2Proof.Machine
end

