-- ==== Sys2Proof/Certificates/Slice0/Obligations.lean ====
section
/-! DEFINITION. The statements about the block, for the provers. Each docstring names the rules of spec/ it formalises. Every statement about `exec` or `step` holds for every capacity and every cipher, since State holds them (logs 1, 2), and for every value of the free values. -/

open Sys2Proof Sys2Proof.Machine

/-! ## Encoding -/

/-- 30_encoding.md R81: the words written out from the opcode map decode to their commands, also in the opcode table's numbering, and three words the spec calls illegal (R84) decode to none. -/
def Obligations.CommandWordsDecodeToTheirCommands : Prop :=
  decode 0b00000000000000000000000000000001#32 = .ok .merge ∧
  decode 0b00000000000000000000000000000010#32 = .ok .unmerge ∧
  decode 0b00000000000000000000000000000011#32 = .ok .envpad ∧
  decode 0b00000000000000000000000000000100#32 = .ok .envunpad ∧
  decodeTableWord 32 1 = some .merge ∧ decodeTableWord 32 4 = some .envunpad ∧
  decode 0x00000000#32 = .error .reservedOpcode ∧ decode 0x00000005#32 = .error .reservedOpcode ∧
  decode 0x00000101#32 = .error .zeroFieldSet

/-- 30_encoding.md R81: a word is legal exactly when bits 31:8 are 0 and bits 7:0 are one of the four opcodes, and then the whole word is matched: decode and encode agree on every word and every command. -/
def Obligations.DecodeAndEncodeAgreeOnEveryWord : Prop :=
  (∀ w : Word, (∃ i, decode w = .ok i) ↔
    w.extractLsb' 8 24 = 0 ∧
      (w.extractLsb' 0 8 = 0x01#8 ∨ w.extractLsb' 0 8 = 0x02#8 ∨ w.extractLsb' 0 8 = 0x03#8 ∨ w.extractLsb' 0 8 = 0x04#8)) ∧
  (∀ (w : Word) (i : Instr), decode w = .ok i ↔ w = encode i) ∧
  encode .merge = 0x00000001#32 ∧ encode .unmerge = 0x00000002#32 ∧
  encode .envpad = 0x00000003#32 ∧ encode .envunpad = 0x00000004#32

/-! ## Issue, completion, steps -/

/-- A step on a pending command word that decodes to a command is the meaning of that command on the state its issue leaves, the turn taken (30_encoding.md R85, R86; log 9). -/
def Obligations.StepRunsTheDecodedCommand : Prop :=
  ∀ (s : State) (w : Word) (rest : List Turn) (i : Instr),
    s.turns = .command w :: rest → s.busy = false → decode w = .ok i →
      step s = exec i (issue i { s with turns := rest })

/-- The engine's step is the meaning of the latched command, on its turn and when the outside has no turn left (30_encoding.md R86; log 8). -/
def Obligations.StepCompletesTheLatchedCommand : Prop :=
  ∀ (s : State) (i : Instr), s.busy = true → s.curOp = some i →
    (s.turns = [] → step s = exec i s) ∧
    (∀ rest, s.turns = .engine :: rest → step s = exec i { s with turns := rest })

/-- 30_encoding.md R86: the fused command is the write of `CMD` followed by the engine's step, for every word and every state. -/
def Obligations.FusedCommandIsIssueThenCompletion : Prop :=
  ∀ (s : State) (w : Word) (rest : List Turn),
    step { s with turns := .command w :: rest } =
      core.run 2 { s with turns := .host (.regWrite 0x00 32 w) :: .engine :: rest }

/-- 30_encoding.md R85: the write of a legal word to `CMD` of an idle block latches the operation and sets STATUS to 0x00000001, whatever stood there; OW, OH and OLEN take unspecified values (the model's free words) and nothing else of the block changes. -/
def Obligations.IssueLatchesTheCommand : Prop :=
  ∀ (s : State) (w : Word) (rest : List Turn) (i : Instr),
    s.turns = .host (.regWrite 0x00 32 w) :: rest → s.busy = false → decode w = .ok i →
      step s = .next { s with
        turns := rest, curOp := some i, status := 0x00000001#32
        ow := Config.freeWord s.freeDraws, oh := Config.freeWord (s.freeDraws + 1),
        olen := Config.freeWord (s.freeDraws + 2), freeDraws := s.freeDraws + 3 }

/-- 30_encoding.md R84: every word but the four, written to `CMD` of an idle block, starts no operation; in that one step STATUS becomes 0x00000056, OW, OH and OLEN become 0, no byte of OUT is known, and nothing else changes. The rule speaks of the host's write. That the model's fused turn does the same is the choice of log 9. -/
def Obligations.IllegalWordIsReported : Prop :=
  ∀ (s : State) (w : Word) (rest : List Turn),
    s.busy = false → s.curOp = none → w ≠ 0x00000001#32 → w ≠ 0x00000002#32 → w ≠ 0x00000003#32 → w ≠ 0x00000004#32 →
    (s.turns = .host (.regWrite 0x00 32 w) :: rest ∨ s.turns = .command w :: rest) →
      step s = .next { s with turns := rest, status := 0x00000056#32, ow := 0, oh := 0, olen := 0, out := [] }

/-- 30_encoding.md R92: the completion step, once enabled, can be taken: from every state that meets the invariant with a command in flight, the engine's turn (or the end of the outside's turns) ends in an idle block with DONE set. It includes commands that read a never-written byte (log 4, the model's choice). -/
def Obligations.EngineTurnCompletesTheCommand : Prop :=
  ∀ s : State, Inv s → s.busy = true → (s.turns = [] ∨ ∃ rest, s.turns = .engine :: rest) →
    ∃ t, step s = .next t ∧ t.busy = false ∧ statusDone t.status = true ∧ t.curOp = none

/-! ## Reset -/

/-- 10_state.md R38, 70_reset_and_hazards.md R201: after the reset input every register reads 0, no byte of a buffer is known and no command is latched, whether or not a command was in flight; the state after power-on is the same. -/
def Obligations.ResetLeavesTheResetState : Prop :=
  (∀ (s : State) (rest : List Turn), s.turns = .reset :: rest →
    ∃ t, step s = .next t ∧ (∀ r, t.readReg r = 0) ∧ t.status = 0 ∧ (∀ b a, Memory.get? (t.buffer b) a = none) ∧ t.curOp = none) ∧
  (∀ r, State.reset.readReg r = 0) ∧ State.reset.status = 0 ∧ (∀ b a, Memory.get? (State.reset.buffer b) a = none) ∧
  State.reset.curOp = none

/-- 70_reset_and_hazards.md section 1: reset is the only event that sets DONE back to 0 without issuing a command. -/
def Obligations.DoneIsClearedOnlyByIssueOrReset : Prop :=
  ∀ s t : State, Inv s → step s = .next t → statusDone s.status = true → statusDone t.status = false →
    (∃ rest, s.turns = .reset :: rest) ∨
    ∃ w rest i, decode w = .ok i ∧ s.turns = .host (.regWrite 0x00 32 w) :: rest

/-! ## The host's accesses -/

/-- 20_memory.md R52: `HostRegRead(n)` returns (into the host's `readWord`, log 11) 0 for `CMD` and the register's value for every other number, and changes no state of the block; it is defined in an idle block, and for STATUS also while BUSY = 1. -/
def Obligations.RegisterReadReturnsTheRegister : Prop :=
  ∀ (s : State) (n : Nat) (v : Word) (rest : List Turn),
    s.turns = .host (.regRead (4 * n) 32) :: rest →
    [0, s.status, s.aw, s.ah, s.bw, s.bh, s.alen, s.key0, s.key1, s.ow, s.oh, s.olen][n]? = some v →
      (s.busy = false ∨ n = 1 → step s = .next { s with turns := rest, readWord := v }) ∧
      (s.busy = true → n ≠ 1 → ∃ r, step s = .refused r)

/-- 20_memory.md R53: `HostRegWrite(n, v)` in an idle block sets exactly the register `n` for `n` in 2 to 8, changes nothing for `n` in 1, 9, 10, 11, and issues a command with word `v` for `n = 0`; while BUSY = 1 it is not defined. -/
def Obligations.RegisterWriteSetsTheRegister : Prop :=
  ∀ (s : State) (n : Nat) (v : Word) (rest : List Turn),
    s.turns = .host (.regWrite (4 * n) 32 v) :: rest → n < 12 →
      (s.busy = false →
        (n = 0 → step s = .next (issueCommand v { s with turns := rest })) ∧
        (n = 2 → step s = .next { s with turns := rest, aw := v }) ∧
        (n = 3 → step s = .next { s with turns := rest, ah := v }) ∧
        (n = 4 → step s = .next { s with turns := rest, bw := v }) ∧
        (n = 5 → step s = .next { s with turns := rest, bh := v }) ∧
        (n = 6 → step s = .next { s with turns := rest, alen := v }) ∧
        (n = 7 → step s = .next { s with turns := rest, key0 := v }) ∧
        (n = 8 → step s = .next { s with turns := rest, key1 := v }) ∧
        (n = 1 ∨ 9 ≤ n → step s = .next { s with turns := rest })) ∧
      (s.busy = true → ∃ r, step s = .refused r)

/-- 20_memory.md R54: a register access at an offset of 0x30 or more, at an offset that is not a multiple of 4, or of a width other than 32 bits is refused. -/
def Obligations.OddRegisterAccessIsRefused : Prop :=
  ∀ (s : State) (offset width : Nat) (v : Word) (rest : List Turn),
    0x30 ≤ offset ∨ offset % 4 ≠ 0 ∨ width ≠ 32 →
    (s.turns = .host (.regRead offset width) :: rest ∨ s.turns = .host (.regWrite offset width v) :: rest) →
      ∃ r, step s = .refused r

/-- 20_memory.md R55: `HostBufRead(S, a)` in an idle block returns (into the host's `readByte`, log 11) the known byte and changes no state, returns a draw for an unspecified byte, and is refused at or beyond the capacity and while BUSY = 1. -/
def Obligations.BufferReadReturnsTheByte : Prop :=
  ∀ (s : State) (b : Buf) (a : Nat) (rest : List Turn),
    s.turns = .host (.bufRead b a) :: rest →
      let size := if b = .out then s.setup.cap.val + 16 else s.setup.cap.val
      (s.busy = false → a < size → ∀ v, Memory.get? (s.buffer b) a = some v →
        step s = .next { s with turns := rest, readByte := v }) ∧
      (s.busy = false → a < size → Memory.get? (s.buffer b) a = none →
        step s = .next { s with turns := rest, readByte := Config.freeByte s.freeDraws, freeDraws := s.freeDraws + 1 }) ∧
      (s.busy = true ∨ size ≤ a → ∃ r, step s = .refused r)

/-- 20_memory.md R56: `HostBufWrite(S, a, v)` for IN_A and IN_B in an idle block makes the byte at `a` equal to `v` (the host's own byte, or the byte its last buffer read returned: log 19) and changes nothing else; at or beyond CAP, and while BUSY = 1, it is refused. -/
def Obligations.BufferWriteChangesOneByte : Prop :=
  ∀ (s : State) (b : Buf) (a : Nat) (v : HostByte) (rest : List Turn),
    b ≠ .out → s.turns = .host (.bufWrite b a v) :: rest →
      let byte := match v with | .lit x => x | .lastRead => s.readByte
      (s.busy = false → a < s.setup.cap.val →
        ∃ t, step s = .next t ∧ Memory.get? (t.buffer b) a = some byte ∧
          (∀ b' a', b' ≠ b ∨ a' ≠ a → Memory.get? (t.buffer b') a' = Memory.get? (s.buffer b') a') ∧
          t = { s with turns := rest, inA := t.inA, inB := t.inB }) ∧
      (s.busy = true ∨ s.setup.cap.val ≤ a → ∃ r, step s = .refused r)

/-- 20_memory.md R57: OUT is read-only for the host: a write below its capacity in an idle block changes no state, a write at or beyond it is refused. -/
def Obligations.OutIsReadOnlyForTheHost : Prop :=
  ∀ (s : State) (a : Nat) (v : HostByte) (rest : List Turn),
    s.turns = .host (.bufWrite .out a v) :: rest →
      (s.busy = false → a < s.setup.cap.val + 16 → step s = .next { s with turns := rest }) ∧
      (s.setup.cap.val + 16 ≤ a → ∃ r, step s = .refused r)

/-- 20_memory.md R58: in a state that meets the invariant, while BUSY = 1 the read of STATUS returns 0x00000001, and every other host action, a write of `CMD` among them, is refused. The first two clauses are R58's. The third, the model's fused turn and the name of its refusal, is the choice of logs 9 and 12. -/
def Obligations.BusyBlockRefusesAllButTheStatusRead : Prop :=
  ∀ (s : State) (rest : List Turn), Inv s → s.busy = true →
    (s.turns = .host (.regRead 0x04 32) :: rest → step s = .next { s with turns := rest, readWord := 0x00000001#32 }) ∧
    (∀ x, s.turns = .host x :: rest → x ≠ .regRead 0x04 32 → ∃ r, step s = .refused r) ∧
    (∀ w, s.turns = .command w :: rest → step s = .refused .accessWhileBusy)

/-- 20_memory.md section 2 (R59): writing a byte to a buffer twice is the same as writing it once, the byte then reads back, every other offset keeps its byte, and the canonical form of the buffer is kept. -/
def Obligations.BufferWriteReadsBackAndKeepsTheForm : Prop :=
  ∀ (m : Memory) (a : Nat) (v : Byte),
    (∀ a', Memory.get? (Memory.put m a v) a' = if a' = a then some v else Memory.get? m a') ∧
    Memory.put (Memory.put m a v) a v = Memory.put m a v ∧
    (Memory.wf m = true → Memory.wf (Memory.put m a v) = true)

/-! ## Whole-machine rules -/

/-- The state after reset meets the invariant. -/
def Obligations.ResetMeetsTheInvariant : Prop := Inv State.reset

/-- Every step keeps the invariant: STATUS takes only its eight values, an opcode is latched exactly while BUSY = 1, the buffers keep their canonical form and their bounds, and in an idle block the known bytes of OUT are `OUT[0 .. OLEN]`. -/
def Obligations.StepKeepsTheInvariant : Prop :=
  ∀ s t : State, Inv s → step s = .next t → Inv t

/-- 10_state.md R25: the invariants of the status fields, in every state that meets the invariant. -/
def Obligations.StatusFieldsAgree : Prop :=
  ∀ s : State, Inv s →
    (statusBusy s.status = true → statusDone s.status = false ∧ statusErr s.status = false ∧ statusEcode s.status = 0) ∧
    (statusErr s.status = true → statusDone s.status = true ∧ statusBusy s.status = false ∧
      1 ≤ (statusEcode s.status).toNat ∧ (statusEcode s.status).toNat ≤ 5) ∧
    (statusErr s.status = false → statusEcode s.status = 0) ∧
    (statusDone s.status = true → statusBusy s.status = false) ∧
    s.status.getLsbD 3 = false ∧ s.status.extractLsb' 8 24 = 0

/-- 10_state.md R28, R33 over whole runs: a step changes an operand or key register only by the host's write to it or by reset, and a byte of IN_A or IN_B only by the host's write to that buffer or by reset. -/
def Obligations.OperandsChangeOnlyByHostOrReset : Prop :=
  ∀ s t : State, step s = .next t → (∀ rest, s.turns ≠ .reset :: rest) →
    (∀ r, r ∈ [Reg.aw, Reg.ah, Reg.bw, Reg.bh, Reg.alen, Reg.key0, Reg.key1] → t.readReg r ≠ s.readReg r →
      ∃ v rest, s.turns = .host (.regWrite r.offset 32 v) :: rest ∧ t.readReg r = v) ∧
    (∀ b, b ≠ .out → t.buffer b ≠ s.buffer b → ∃ a v rest, s.turns = .host (.bufWrite b a v) :: rest ∧ s.busy = false)

/-- 10_state.md R37: no step changes the capacity or the cipher. -/
def Obligations.ParametersNeverChange : Prop :=
  ∀ s t : State, step s = .next t → t.setup = s.setup

/-- 20_memory.md R72, 60_exceptions.md R176: no step ends in a fault, from any state and on any turn. -/
def Obligations.NoStepFaults : Prop :=
  ∀ (s : State) (r : Fault), step s ≠ .fault r

/-! ## All commands -/

/-- The frame of the four commands (10_state.md R28, R33; 60_exceptions.md R178): a completion changes STATUS, OW, OH, OLEN, OUT, the latched opcode and the random source's answers, and nothing else: no operand or key register, no byte of IN_A or IN_B, no pending turn; and the latched opcode becomes none. -/
def Obligations.CommandsChangeOnlyTheResults : Prop :=
  ∀ (i : Instr) (s t : State), exec i s = .next t →
    t = { s with
      status := t.status, ow := t.ow, oh := t.oh, olen := t.olen, out := t.out, curOp := none
      ivAnswers := t.ivAnswers, ivDraws := t.ivDraws } ∧
    (∀ a, Memory.get? t.inA a = Memory.get? s.inA a) ∧ (∀ a, Memory.get? t.inB a = Memory.get? s.inB a)

/-- 20_memory.md R72, 60_exceptions.md R176: no command makes an access outside a buffer: every command completes from every state, its output lies inside OUT, and OLEN is the exact length of the known bytes of OUT. That a command also completes when a byte of its input region was never written rests on log 4, the model's choice where 10_state.md R34 and 70_reset_and_hazards.md R202 let a model refuse. -/
def Obligations.EveryCommandCompletesInsideItsBuffers : Prop :=
  ∀ (i : Instr) (s : State), ∃ t, exec i s = .next t ∧ statusBusy t.status = false ∧ statusDone t.status = true ∧
    t.out.map Prod.fst = List.range t.olen.toNat ∧ t.olen.toNat ≤ s.setup.cap.val + 16

/-- 60_exceptions.md R178: when a command completes with an error, STATUS is `0x00000006 | (e << 4)`, OW, OH and OLEN are 0, no byte of OUT is known, no opcode is latched, and nothing else has changed, the random source's answers included. -/
def Obligations.ErrorLeavesOnlyItsCode : Prop :=
  ∀ (i : Instr) (s t : State), exec i s = .next t → statusErr t.status = true →
    ∃ e : Nat, 1 ≤ e ∧ e ≤ 4 ∧ t = afterError (0x00000006#32 ||| (BitVec.ofNat 32 e <<< 4)) s

/-- 60_exceptions.md R171, R172, R173, R175, R176: which command ends with which error code, exactly: DimensionError and FormatError from the registers alone and before CapacityError, PaddingError last; codes above 4 never. -/
def Obligations.ErrorCodesAndTheirOrder : Prop :=
  ∀ (i : Instr) (s t : State), exec i s = .next t →
    let dimension := i = .merge ∧ (s.aw.toNat < s.bw.toNat ∨ s.ah.toNat < s.bh.toNat)
    let format := i = .envunpad ∧ (s.alen.toNat < 16 ∨ (s.alen.toNat - 8) % 8 ≠ 0)
    let tooLong := ((i = .merge ∨ i = .unmerge) ∧ s.setup.cap.val < 3 * s.aw.toNat * s.ah.toNat) ∨
      ((i = .envpad ∨ i = .envunpad) ∧ s.setup.cap.val < s.alen.toNat)
    (statusEcode t.status = 1 ↔ dimension) ∧
    (statusEcode t.status = 2 ↔ format) ∧
    (statusEcode t.status = 4 ↔ tooLong ∧ ¬ dimension ∧ ¬ format) ∧
    (statusEcode t.status = 3 → i = .envunpad ∧ ¬ tooLong ∧ ¬ format) ∧
    (statusEcode t.status).toNat ≤ 4 ∧
    (statusErr t.status = true ↔ statusEcode t.status ≠ 0)

/-- 10_state.md R36: the results of a command are a function of the opcode, the operand registers it reads, its input region and, for ENVPAD, the drawn IV: two states that agree on these give the same STATUS, OW, OH, OLEN and OUT, whatever else they hold. -/
def Obligations.CommandsAreStateless : Prop :=
  ∀ (i : Instr) (s s' t t' : State), SameInputs i s s' → exec i s = .next t → exec i s' = .next t' → SameResults t t'

/-- 41_cipher_envelope.md R141: exactly a completion of ENVPAD that passes the capacity check takes a draw, and it takes one; the first 8 bytes of OUT are then the drawn IV, whatever the answer is. -/
def Obligations.OnlyEnvpadDrawsAnIv : Prop :=
  (∀ (i : Instr) (s t : State) (iv : Block) (more : List Block), exec i s = .next t → s.ivAnswers = iv :: more →
    t.ivDraws = s.ivDraws ∧
    (i = .envpad ∧ s.alen.toNat ≤ s.setup.cap.val → t.ivAnswers = more ∧ blockOf (knownByte t.out) 0 = iv) ∧
    (¬ (i = .envpad ∧ s.alen.toNat ≤ s.setup.cap.val) → t.ivAnswers = s.ivAnswers)) ∧
  (∀ (i : Instr) (s t : State), exec i s = .next t → s.ivAnswers = [] →
    t.ivAnswers = [] ∧
    (i = .envpad ∧ s.alen.toNat ≤ s.setup.cap.val →
      t.ivDraws = s.ivDraws + 1 ∧ blockOf (knownByte t.out) 0 = Config.drawIv s.ivDraws) ∧
    (¬ (i = .envpad ∧ s.alen.toNat ≤ s.setup.cap.val) → t.ivDraws = s.ivDraws))

/-! ## MERGE and UNMERGE -/

/-- 40_pixel_codec.md R100, R104, R118: the two byte functions as numbers, and that unmerging a merged byte gives the payload byte with its low nibble cleared, for all bytes. -/
def Obligations.NibbleFunctionsAsNumbers : Prop :=
  ∀ cb pb : Byte,
    (mergeByte cb pb).toNat = 16 * (cb.toNat / 16) + pb.toNat / 16 ∧
    (unmergeByte cb).toNat = 16 * (cb.toNat % 16) ∧
    unmergeByte (mergeByte cb pb) = pb &&& 0xF0#8

/-- 40_pixel_codec.md R110: MERGE. A payload larger than the carrier in either dimension is DimensionError; else an image larger than the buffer is CapacityError; else OUT holds the merged image, each byte the carrier's upper nibble over the upper nibble of the payload's byte at the same coordinate, or over 0 outside the payload, and OW, OH, OLEN, STATUS say so. Registers and input buffers do not change. A byte of the input region that the host has never written is the draw of log 4, the model's choice where 10_state.md R34 leaves two treatments open. -/
def Obligations.MergeCommand : Prop :=
  encode .merge = 0x00000001#32 ∧
  ∀ s : State,
    (s.aw.toNat < s.bw.toNat ∨ s.ah.toNat < s.bh.toNat → exec .merge s = .next (afterError 0x00000016#32 s)) ∧
    (s.bw.toNat ≤ s.aw.toNat → s.bh.toNat ≤ s.ah.toNat → s.setup.cap.val < 3 * s.aw.toNat * s.ah.toNat →
      exec .merge s = .next (afterError 0x00000046#32 s)) ∧
    (s.bw.toNat ≤ s.aw.toNat → s.bh.toNat ≤ s.ah.toNat → 3 * s.aw.toNat * s.ah.toNat ≤ s.setup.cap.val →
      ∃ t, exec .merge s = .next t ∧
        t = { s with status := 0x00000002#32, ow := s.aw, oh := s.ah, olen := t.olen, out := t.out, curOp := none } ∧
        t.olen.toNat = 3 * s.aw.toNat * s.ah.toNat ∧
        (∀ x y c, x < s.aw.toNat → y < s.ah.toNat → c < 3 →
          Memory.get? t.out (3 * (y * s.aw.toNat + x) + c) =
            some ((s.byteAt .inA (3 * (y * s.aw.toNat + x) + c) &&& 0xF0#8) ||| (payloadByte s x y c >>> 4))) ∧
        (∀ a, 3 * s.aw.toNat * s.ah.toNat ≤ a → Memory.get? t.out a = none))

/-- 40_pixel_codec.md R115, R107: UNMERGE. An image larger than the buffer is CapacityError; else OW and OH are the inferred extent, OUT holds the rectangle from the origin, repacked to width OW, each byte the lower nibble promoted, and OLEN and STATUS say so. Registers and input buffers do not change. A byte of the input region that the host has never written is the draw of log 4, the model's choice where 10_state.md R34 leaves two treatments open. -/
def Obligations.UnmergeCommand : Prop :=
  encode .unmerge = 0x00000002#32 ∧
  ∀ s : State,
    (s.setup.cap.val < 3 * s.aw.toNat * s.ah.toNat → exec .unmerge s = .next (afterError 0x00000046#32 s)) ∧
    (3 * s.aw.toNat * s.ah.toNat ≤ s.setup.cap.val →
      ∃ t, exec .unmerge s = .next t ∧
        t = { s with status := 0x00000002#32, ow := t.ow, oh := t.oh, olen := t.olen, out := t.out, curOp := none } ∧
        InferredExtent s t.ow.toNat t.oh.toNat ∧
        t.olen.toNat = 3 * t.ow.toNat * t.oh.toNat ∧
        (∀ x y c, x < t.ow.toNat → y < t.oh.toNat → c < 3 →
          Memory.get? t.out (3 * (y * t.ow.toNat + x) + c) =
            some ((s.byteAt .inA (3 * (y * s.aw.toNat + x) + c) &&& 0x0F#8) <<< 4)) ∧
        (∀ a, 3 * t.ow.toNat * t.oh.toNat ≤ a → Memory.get? t.out a = none))

/-- 40_pixel_codec.md R111 (b), (c), (d): every output byte of MERGE has the carrier byte's upper nibble; its lower nibble is the payload byte's upper nibble inside the payload's extent and 0 outside; and the output does not depend on the lower nibbles of either image. A byte of the input region that the host has never written is the draw of log 4, the model's choice where 10_state.md R34 leaves two treatments open. -/
def Obligations.MergeKeepsUpperNibbles : Prop :=
  (∀ (s t : State) (x y c : Nat), exec .merge s = .next t → statusErr t.status = false →
    x < s.aw.toNat → y < s.ah.toNat → c < 3 →
      t.ow = s.aw ∧ t.oh = s.ah ∧
      knownByte t.out (3 * (y * s.aw.toNat + x) + c) &&& 0xF0#8 = s.byteAt .inA (3 * (y * s.aw.toNat + x) + c) &&& 0xF0#8 ∧
      (x < s.bw.toNat ∧ y < s.bh.toNat → knownByte t.out (3 * (y * s.aw.toNat + x) + c) &&& 0x0F#8 =
        s.byteAt .inB (3 * (y * s.bw.toNat + x) + c) >>> 4) ∧
      (¬ (x < s.bw.toNat ∧ y < s.bh.toNat) → knownByte t.out (3 * (y * s.aw.toNat + x) + c) &&& 0x0F#8 = 0)) ∧
  (∀ s s' t t' : State, s.setup = s'.setup → s.aw = s'.aw → s.ah = s'.ah → s.bw = s'.bw → s.bh = s'.bh →
    (∀ a, s.byteAt .inA a &&& 0xF0#8 = s'.byteAt .inA a &&& 0xF0#8) →
    (∀ a, s.byteAt .inB a &&& 0xF0#8 = s'.byteAt .inB a &&& 0xF0#8) →
    exec .merge s = .next t → exec .merge s' = .next t' → SameResults t t')

/-- 40_pixel_codec.md R116: the extent UNMERGE infers from an image that MERGE produced, the merged image copied back to IN_A. Either some payload pixel has a channel of 16 or more and the extent is at most the payload's size, or none has and it is the carrier's size; and the extent is the payload's true size exactly when the payload's last pixel has a channel of 16 or more, or none has and the payload has the carrier's dimensions. A byte of the input region that the host has never written is the draw of log 4, the model's choice where 10_state.md R34 leaves two treatments open. -/
def Obligations.ExtentOfAMergedImage : Prop :=
  ∀ s t u : State, exec .merge s = .next t → statusErr t.status = false →
    exec .unmerge { t with inA := t.out } = .next u → statusErr u.status = false →
      let bright := fun x y => ∃ c, c < 3 ∧ 16 ≤ (s.byteAt .inB (3 * (y * s.bw.toNat + x) + c)).toNat
      let anyBright := ∃ x y, x < s.bw.toNat ∧ y < s.bh.toNat ∧ bright x y
      (anyBright → u.ow.toNat ≤ s.bw.toNat ∧ u.oh.toNat ≤ s.bh.toNat) ∧
      (¬ anyBright → u.ow = s.aw ∧ u.oh = s.ah) ∧
      ((u.ow = s.bw ∧ u.oh = s.bh) ↔
        (0 < s.bw.toNat ∧ 0 < s.bh.toNat ∧ bright (s.bw.toNat - 1) (s.bh.toNat - 1)) ∨
        (¬ anyBright ∧ s.bw = s.aw ∧ s.bh = s.ah))

/-- 40_pixel_codec.md R118: (a) the uncropped reconstruction of a merged image is the payload with each channel's low nibble cleared, 0 outside the payload; (b) on the machine: MERGE, the output copied to IN_A, UNMERGE: every byte of the recovered, cropped image is the payload's byte at that coordinate with its low nibble cleared, 0 outside the payload. A byte of the input region that the host has never written is the draw of log 4, the model's choice where 10_state.md R34 leaves two treatments open. -/
def Obligations.MergeThenUnmergeRecoversThePayload : Prop :=
  (∀ (c p : Image) (x y ch : Nat), (recon (mergeImg c p)).px x y ch = pay p x y ch &&& 0xF0#8) ∧
  ∀ s t : State, exec .merge s = .next t → statusErr t.status = false →
    ∃ u, exec .unmerge { t with inA := t.out } = .next u ∧ statusErr u.status = false ∧
      u.ow.toNat ≤ s.aw.toNat ∧ u.oh.toNat ≤ s.ah.toNat ∧
      ∀ x y c, x < u.ow.toNat → y < u.oh.toNat → c < 3 →
        Memory.get? u.out (3 * (y * u.ow.toNat + x) + c) = some (payloadByte s x y c &&& 0xF0#8)

/-- 20_memory.md R60: the offsets of an image's bytes are exactly 0 to `3 * W * H - 1`, each the offset of one pixel and channel only. -/
def Obligations.PixelOffsetsFillTheImage : Prop :=
  ∀ w h : Nat,
    (∀ x y c, x < w → y < h → c < 3 → off w x y c < 3 * w * h) ∧
    (∀ x y c x' y' c', x < w → y < h → c < 3 → x' < w → y' < h → c' < 3 →
      off w x y c = off w x' y' c' → x = x' ∧ y = y' ∧ c = c') ∧
    (∀ a, a < 3 * w * h → ∃ x y c, x < w ∧ y < h ∧ c < 3 ∧ off w x y c = a)

/-! ## ENVPAD and ENVUNPAD -/

/-- 41_cipher_envelope.md R131: the padding: 1 to 8 bytes whose value is their number, up to a multiple of 8. The bytes' value is the spec's own passage from general knowledge (93 G1; log 13). -/
def Obligations.PaddingBytes : Prop :=
  ∀ b : List Byte,
    1 ≤ 8 - b.length % 8 ∧ 8 - b.length % 8 ≤ 8 ∧
    (pad b).length = 8 * (b.length / 8 + 1) ∧
    (∀ a, a < b.length → (pad b)[a]? = b[a]?) ∧
    (∀ a, b.length ≤ a → a < b.length + (8 - b.length % 8) → (pad b)[a]? = some (BitVec.ofNat 8 (8 - b.length % 8)))

/-- 41_cipher_envelope.md R137: the padding test accepts exactly the byte strings that end in `n` bytes of value `n`, `1 <= n <= 8`; `unpad` removes those `n` bytes; and it removes the padding of every plaintext. The test is the spec's own passage from general knowledge (93 G2; log 13). -/
def Obligations.UnpadRemovesThePadding : Prop :=
  (∀ (p : List Byte) (n : Nat), 8 ≤ p.length → EndsInPadding p n → padOk p = true ∧ unpad p = p.take (p.length - n)) ∧
  (∀ p : List Byte, 8 ≤ p.length → padOk p = true → ∃ n, EndsInPadding p n) ∧
  (∀ b : List Byte, padOk (pad b) = true ∧ unpad (pad b) = b)

/-- 41_cipher_envelope.md R140, R133, R134: ENVPAD. A plaintext longer than the buffer is CapacityError, with no draw; else OUT holds the drawn IV and then the CBC encryption of the padded plaintext: each block is the encryption of the padded block combined with the block before it in OUT. OLEN is `L + 16 - L mod 8`, OW and OH are 0. Registers, the key among them, and input buffers do not change. The filler bytes and the chaining equation rest on the spec's own passages G1 and G3 of 93 (log 13). A byte of the input region that the host has never written is the draw of log 4, the model's choice where 10_state.md R34 leaves two treatments open. -/
def Obligations.EnvpadCommand : Prop :=
  encode .envpad = 0x00000003#32 ∧
  ∀ s : State,
    (s.setup.cap.val < s.alen.toNat → exec .envpad s = .next (afterError 0x00000046#32 s)) ∧
    (s.alen.toNat ≤ s.setup.cap.val →
      ∃ t, exec .envpad s = .next t ∧
        t = { s with
          status := 0x00000002#32, ow := 0, oh := 0, olen := t.olen, out := t.out, curOp := none
          ivAnswers := s.afterIvDraw.ivAnswers, ivDraws := s.afterIvDraw.ivDraws } ∧
        t.olen.toNat = s.alen.toNat + 16 - s.alen.toNat % 8 ∧
        (∀ a, Memory.get? t.out a = none ↔ t.olen.toNat ≤ a) ∧
        blockOf (knownByte t.out) 0 = s.nextIv ∧
        (∀ j, j < s.alen.toNat / 8 + 1 →
          blockOf (knownByte t.out) (j + 1) =
            bcEnc s.setup.cipher s.key (Block.xor (blockOf (paddedByte s) j) (blockOf (knownByte t.out) j))))

/-- 41_cipher_envelope.md R150, R136, R137: ENVUNPAD. A length below 16 or not a multiple of 8 is FormatError; else a length above CAP is CapacityError; else there are the decrypted bytes `p`, each block the decryption of the next ciphertext block combined with the block before it in the blob, and if they end in no valid padding the command is PaddingError, and if they end in `n` bytes of padding OUT holds the bytes before it and OLEN is `ALEN - 8 - n`. Registers and input buffers do not change. The padding test and the chaining equation rest on the spec's own passages G2 and G3 of 93 (log 13). A byte of the input region that the host has never written is the draw of log 4, the model's choice where 10_state.md R34 leaves two treatments open. -/
def Obligations.EnvunpadCommand : Prop :=
  encode .envunpad = 0x00000004#32 ∧
  ∀ s : State,
    (s.alen.toNat < 16 ∨ (s.alen.toNat - 8) % 8 ≠ 0 → exec .envunpad s = .next (afterError 0x00000026#32 s)) ∧
    (16 ≤ s.alen.toNat → (s.alen.toNat - 8) % 8 = 0 → s.setup.cap.val < s.alen.toNat →
      exec .envunpad s = .next (afterError 0x00000046#32 s)) ∧
    (16 ≤ s.alen.toNat → (s.alen.toNat - 8) % 8 = 0 → s.alen.toNat ≤ s.setup.cap.val →
      ∃ p : List Byte, p.length = s.alen.toNat - 8 ∧
        (∀ j, j < (s.alen.toNat - 8) / 8 →
          blockOf (fun a => p.getD a 0) j =
            Block.xor (bcDec s.setup.cipher s.key (blockOf (s.byteAt .inA) (j + 1))) (blockOf (s.byteAt .inA) j)) ∧
        ((∀ n, ¬ EndsInPadding p n) → exec .envunpad s = .next (afterError 0x00000036#32 s)) ∧
        (∀ n, EndsInPadding p n →
          ∃ t, exec .envunpad s = .next t ∧
            t = { s with status := 0x00000002#32, ow := 0, oh := 0, olen := t.olen, out := t.out, curOp := none } ∧
            t.olen.toNat = s.alen.toNat - 8 - n ∧
            (∀ a, a < s.alen.toNat - 8 - n → Memory.get? t.out a = p[a]?) ∧
            (∀ a, s.alen.toNat - 8 - n ≤ a → Memory.get? t.out a = none)))

/-- 41_cipher_envelope.md R139: for every cipher that meets BC_INV, every plaintext (the empty one included), every key and every IV, decrypting the encryption gives the plaintext back. A law the spec derives from R131, R133, R136 and R137 (93 G1 to G3; log 13). -/
def Obligations.EnvelopeRoundTrip : Prop :=
  ∀ (c : Cipher) (b : List Byte) (k : Key) (iv : Block), BcInv c →
    envelopeDec c (envelopeEnc c b k iv) k = .ok b

/-- 41_cipher_envelope.md R139 on the machine: ENVPAD, the blob copied to IN_A with its length in ALEN, ENVUNPAD under the same key. If the blob fits IN_A and the cipher meets BC_INV, the command completes without error and OUT is the plaintext again, whatever IV was drawn. It rests on the spec's own passages G1 to G3 of 93 (log 13). A byte of the input region that the host has never written is the draw of log 4, the model's choice where 10_state.md R34 leaves two treatments open. -/
def Obligations.EnvpadThenEnvunpadRecoversThePlaintext : Prop :=
  ∀ s t : State, BcInv s.setup.cipher → exec .envpad s = .next t → statusErr t.status = false →
    t.olen.toNat ≤ s.setup.cap.val →
      ∃ u, exec .envunpad { t with inA := t.out, alen := t.olen } = .next u ∧
        u.status = 0x00000002#32 ∧ u.olen = s.alen ∧
        (∀ a, a < s.alen.toNat → Memory.get? u.out a = some (s.byteAt .inA a)) ∧
        (∀ a, s.alen.toNat ≤ a → Memory.get? u.out a = none)

/-- 41_cipher_envelope.md section 1 (R136), R151 (b): a decrypted block depends on two blocks of the blob only: replacing ciphertext block `j` leaves every decrypted block but `j` and `j + 1` as it was, and replacing the IV leaves every decrypted block but the first. It rests on the spec's own passage G3 of 93 (log 13). -/
def Obligations.DecryptedBlockDependsOnTwoBlocks : Prop :=
  ∀ (dec : Block → Block) (iv : Block) (ct : List Block),
    (∀ (x : Block) (j i : Nat), i ≠ j → i ≠ j + 1 → (cbcDec dec iv (ct.set j x))[i]? = (cbcDec dec iv ct)[i]?) ∧
    (∀ (iv' : Block) (i : Nat), i ≠ 0 → (cbcDec dec iv' ct)[i]? = (cbcDec dec iv ct)[i]?)

/-- 41_cipher_envelope.md section 1 (R133, R136): for every pair of block functions of which the second undoes the first, CBC decryption undoes CBC encryption under the same IV, and the ciphertext has as many blocks as the plaintext. It rests on the spec's own passage G3 of 93 (log 13). -/
def Obligations.CbcDecryptionUndoesEncryption : Prop :=
  ∀ (enc dec : Block → Block) (iv : Block) (p : List Block), (∀ b, dec (enc b) = b) →
    cbcDec dec iv (cbcEnc enc iv p) = p ∧ (cbcEnc enc iv p).length = p.length

/-! ## The host script -/

/-- 30_encoding.md R91 `ldbytes`: performed from an idle block, the line writes the bytes to the buffer from offset 0 and changes nothing else. -/
def Obligations.LdbytesLoadsTheBuffer : Prop :=
  ∀ (s : State) (b : Buf) (bytes : List Byte) (rest : List Turn),
    s.busy = false → b ≠ .out → bytes.length ≤ s.setup.cap.val →
    s.turns = (ScriptLine.ldbytes b bytes).turns ++ rest →
      ∃ t, core.run bytes.length s = .next t ∧
        (∀ a, Memory.get? (t.buffer b) a = if a < bytes.length then bytes[a]? else Memory.get? (s.buffer b) a) ∧
        t = { s with turns := rest, inA := t.inA, inB := t.inB } ∧
        (∀ b', b' ≠ b → t.buffer b' = s.buffer b')

/-- 30_encoding.md R91 `ldimg`, 20_memory.md R60: performed from an idle block, the line writes channel `c` of the pixel listed for `(x, y)`, the pixels listed row by row, to offset `3 * (y * W + x) + c`, and changes nothing else. -/
def Obligations.LdimgLoadsTheImage : Prop :=
  ∀ (s : State) (b : Buf) (w h : Nat) (pixels : List (Byte × Byte × Byte)) (rest : List Turn),
    s.busy = false → b ≠ .out → pixels.length = w * h → 3 * w * h ≤ s.setup.cap.val →
    s.turns = (ScriptLine.ldimg b w h pixels).turns ++ rest →
      ∃ t, core.run (3 * w * h) s = .next t ∧
        (∀ x y, x < w → y < h → ∃ p, pixels[y * w + x]? = some p ∧
          Memory.get? (t.buffer b) (3 * (y * w + x)) = some p.1 ∧
          Memory.get? (t.buffer b) (3 * (y * w + x) + 1) = some p.2.1 ∧
          Memory.get? (t.buffer b) (3 * (y * w + x) + 2) = some p.2.2) ∧
        (∀ a, 3 * w * h ≤ a → Memory.get? (t.buffer b) a = Memory.get? (s.buffer b) a) ∧
        t = { s with turns := rest, inA := t.inA, inB := t.inB } ∧
        (∀ b', b' ≠ b → t.buffer b' = s.buffer b')

/-- 30_encoding.md R91 `copyout`: performed from an idle block whose first `n` bytes of OUT are known, the line copies them to the buffer, leaves every other byte of every buffer as it was, and changes no register. That the byte written is the host's last byte read is the model's form of "the byte read" (log 19). -/
def Obligations.CopyoutCopiesTheResult : Prop :=
  ∀ (s : State) (b : Buf) (n : Nat) (rest : List Turn),
    s.busy = false → b ≠ .out → n ≤ s.setup.cap.val → (∀ a, a < n → Memory.get? s.out a ≠ none) →
    s.turns = (ScriptLine.copyout b n).turns ++ rest →
      ∃ t, core.run (2 * n) s = .next t ∧
        (∀ a, Memory.get? (t.buffer b) a = if a < n then Memory.get? s.out a else Memory.get? (s.buffer b) a) ∧
        t = { s with turns := rest, inA := t.inA, inB := t.inB, readByte := t.readByte } ∧
        (∀ b', b' ≠ b → t.buffer b' = s.buffer b')

/-- 30_encoding.md R91 `key`, 10_state.md R23: performed from an idle block, the line `key b0 ... b7` sets KEY0 and KEY1 so that the key the commands use is those eight bytes, and changes nothing else. -/
def Obligations.KeyLineSetsTheKey : Prop :=
  ∀ (s : State) (k : Key) (rest : List Turn),
    s.busy = false → s.turns = (ScriptLine.key k).turns ++ rest →
      ∃ t, core.run 2 s = .next t ∧ t.key = k ∧ t = { s with turns := rest, key0 := t.key0, key1 := t.key1 } ∧
        t.key0.toNat = k.b0.toNat + 256 * k.b1.toNat + 65536 * k.b2.toNat + 16777216 * k.b3.toNat ∧
        t.key1.toNat = k.b4.toNat + 256 * k.b5.toNat + 65536 * k.b6.toNat + 16777216 * k.b7.toNat

/-- 30_encoding.md R91 `wait`: after a legal command, however many reads of STATUS come before the engine's step, the last read returns a word with BUSY = 0 and DONE = 1. The expansion of `wait`, with a number of reads before the engine's turn, is the model's choice (log 19). That a command completes too which reads a byte the host has never written is the model's choice (log 4), where 10_state.md R34 and 70_reset_and_hazards.md R202 let a model refuse. -/
def Obligations.WaitEndsWithDone : Prop :=
  ∀ (s : State) (polls : Nat) (rest : List Turn),
    Inv s → s.busy = true → s.turns = (ScriptLine.wait polls).turns ++ rest →
      ∃ t, core.run (polls + 2) s = .next t ∧ t.turns = rest ∧ t.busy = false ∧
        statusBusy t.readWord = false ∧ statusDone t.readWord = true ∧ t.readWord = t.status
end

