-- ==== Sys2Proof/Laws/State.lean ====
section
/-! SUPPORT. One lemma per field per update of the state, so that no proof unfolds a record update. -/

namespace Sys2Proof.Machine

section

variable (e : ErrorCode) (s : State)

@[simp] theorem raiseError_status : (raiseError e s).status = errorStatus e := rfl
@[simp] theorem raiseError_aw : (raiseError e s).aw = s.aw := rfl
@[simp] theorem raiseError_ah : (raiseError e s).ah = s.ah := rfl
@[simp] theorem raiseError_bw : (raiseError e s).bw = s.bw := rfl
@[simp] theorem raiseError_bh : (raiseError e s).bh = s.bh := rfl
@[simp] theorem raiseError_alen : (raiseError e s).alen = s.alen := rfl
@[simp] theorem raiseError_key0 : (raiseError e s).key0 = s.key0 := rfl
@[simp] theorem raiseError_key1 : (raiseError e s).key1 = s.key1 := rfl
@[simp] theorem raiseError_ow : (raiseError e s).ow = 0 := rfl
@[simp] theorem raiseError_oh : (raiseError e s).oh = 0 := rfl
@[simp] theorem raiseError_olen : (raiseError e s).olen = 0 := rfl
@[simp] theorem raiseError_inA : (raiseError e s).inA = s.inA := rfl
@[simp] theorem raiseError_inB : (raiseError e s).inB = s.inB := rfl
@[simp] theorem raiseError_out : (raiseError e s).out = [] := rfl
@[simp] theorem raiseError_curOp : (raiseError e s).curOp = none := rfl
@[simp] theorem raiseError_setup : (raiseError e s).setup = s.setup := rfl
@[simp] theorem raiseError_turns : (raiseError e s).turns = s.turns := rfl
@[simp] theorem raiseError_ivAnswers : (raiseError e s).ivAnswers = s.ivAnswers := rfl
@[simp] theorem raiseError_ivDraws : (raiseError e s).ivDraws = s.ivDraws := rfl
@[simp] theorem raiseError_freeDraws : (raiseError e s).freeDraws = s.freeDraws := rfl
@[simp] theorem raiseError_resets : (raiseError e s).resets = s.resets := rfl
@[simp] theorem raiseError_readWord : (raiseError e s).readWord = s.readWord := rfl
@[simp] theorem raiseError_readByte : (raiseError e s).readByte = s.readByte := rfl

end

section

variable (i : Instr) (s : State)

@[simp] theorem issue_status : (issue i s).status = busyStatus := rfl
@[simp] theorem issue_aw : (issue i s).aw = s.aw := rfl
@[simp] theorem issue_ah : (issue i s).ah = s.ah := rfl
@[simp] theorem issue_bw : (issue i s).bw = s.bw := rfl
@[simp] theorem issue_bh : (issue i s).bh = s.bh := rfl
@[simp] theorem issue_alen : (issue i s).alen = s.alen := rfl
@[simp] theorem issue_key0 : (issue i s).key0 = s.key0 := rfl
@[simp] theorem issue_key1 : (issue i s).key1 = s.key1 := rfl
@[simp] theorem issue_ow : (issue i s).ow = Config.freeWord s.freeDraws := rfl
@[simp] theorem issue_oh : (issue i s).oh = Config.freeWord (s.freeDraws + 1) := rfl
@[simp] theorem issue_olen : (issue i s).olen = Config.freeWord (s.freeDraws + 2) := rfl
@[simp] theorem issue_inA : (issue i s).inA = s.inA := rfl
@[simp] theorem issue_inB : (issue i s).inB = s.inB := rfl
@[simp] theorem issue_out : (issue i s).out = s.out := rfl
@[simp] theorem issue_curOp : (issue i s).curOp = some i := rfl
@[simp] theorem issue_setup : (issue i s).setup = s.setup := rfl
@[simp] theorem issue_turns : (issue i s).turns = s.turns := rfl
@[simp] theorem issue_ivAnswers : (issue i s).ivAnswers = s.ivAnswers := rfl
@[simp] theorem issue_ivDraws : (issue i s).ivDraws = s.ivDraws := rfl
@[simp] theorem issue_freeDraws : (issue i s).freeDraws = s.freeDraws + 3 := rfl
@[simp] theorem issue_resets : (issue i s).resets = s.resets := rfl
@[simp] theorem issue_readWord : (issue i s).readWord = s.readWord := rfl
@[simp] theorem issue_readByte : (issue i s).readByte = s.readByte := rfl

end

section

variable (ow oh : Nat) (bytes : List Byte) (s : State)

@[simp] theorem complete_status : (complete ow oh bytes s).status = doneStatus := rfl
@[simp] theorem complete_aw : (complete ow oh bytes s).aw = s.aw := rfl
@[simp] theorem complete_ah : (complete ow oh bytes s).ah = s.ah := rfl
@[simp] theorem complete_bw : (complete ow oh bytes s).bw = s.bw := rfl
@[simp] theorem complete_bh : (complete ow oh bytes s).bh = s.bh := rfl
@[simp] theorem complete_alen : (complete ow oh bytes s).alen = s.alen := rfl
@[simp] theorem complete_key0 : (complete ow oh bytes s).key0 = s.key0 := rfl
@[simp] theorem complete_key1 : (complete ow oh bytes s).key1 = s.key1 := rfl
@[simp] theorem complete_ow : (complete ow oh bytes s).ow = BitVec.ofNat 32 ow := rfl
@[simp] theorem complete_oh : (complete ow oh bytes s).oh = BitVec.ofNat 32 oh := rfl
@[simp] theorem complete_olen : (complete ow oh bytes s).olen = BitVec.ofNat 32 bytes.length := rfl
@[simp] theorem complete_inA : (complete ow oh bytes s).inA = s.inA := rfl
@[simp] theorem complete_inB : (complete ow oh bytes s).inB = s.inB := rfl
@[simp] theorem complete_out : (complete ow oh bytes s).out = Memory.ofBytes 0 bytes := rfl
@[simp] theorem complete_curOp : (complete ow oh bytes s).curOp = none := rfl
@[simp] theorem complete_setup : (complete ow oh bytes s).setup = s.setup := rfl
@[simp] theorem complete_turns : (complete ow oh bytes s).turns = s.turns := rfl
@[simp] theorem complete_ivAnswers : (complete ow oh bytes s).ivAnswers = s.ivAnswers := rfl
@[simp] theorem complete_ivDraws : (complete ow oh bytes s).ivDraws = s.ivDraws := rfl
@[simp] theorem complete_freeDraws : (complete ow oh bytes s).freeDraws = s.freeDraws := rfl
@[simp] theorem complete_resets : (complete ow oh bytes s).resets = s.resets := rfl
@[simp] theorem complete_readWord : (complete ow oh bytes s).readWord = s.readWord := rfl
@[simp] theorem complete_readByte : (complete ow oh bytes s).readByte = s.readByte := rfl

end

section

variable (s : State)

@[simp] theorem resetBlock_status : (resetBlock s).status = 0 := rfl
@[simp] theorem resetBlock_aw : (resetBlock s).aw = 0 := rfl
@[simp] theorem resetBlock_ah : (resetBlock s).ah = 0 := rfl
@[simp] theorem resetBlock_bw : (resetBlock s).bw = 0 := rfl
@[simp] theorem resetBlock_bh : (resetBlock s).bh = 0 := rfl
@[simp] theorem resetBlock_alen : (resetBlock s).alen = 0 := rfl
@[simp] theorem resetBlock_key0 : (resetBlock s).key0 = 0 := rfl
@[simp] theorem resetBlock_key1 : (resetBlock s).key1 = 0 := rfl
@[simp] theorem resetBlock_ow : (resetBlock s).ow = 0 := rfl
@[simp] theorem resetBlock_oh : (resetBlock s).oh = 0 := rfl
@[simp] theorem resetBlock_olen : (resetBlock s).olen = 0 := rfl
@[simp] theorem resetBlock_inA : (resetBlock s).inA = [] := rfl
@[simp] theorem resetBlock_inB : (resetBlock s).inB = [] := rfl
@[simp] theorem resetBlock_out : (resetBlock s).out = [] := rfl
@[simp] theorem resetBlock_curOp : (resetBlock s).curOp = none := rfl
@[simp] theorem resetBlock_setup : (resetBlock s).setup = s.setup := rfl
@[simp] theorem resetBlock_turns : (resetBlock s).turns = s.turns := rfl
@[simp] theorem resetBlock_ivAnswers : (resetBlock s).ivAnswers = s.ivAnswers := rfl
@[simp] theorem resetBlock_ivDraws : (resetBlock s).ivDraws = s.ivDraws := rfl
@[simp] theorem resetBlock_freeDraws : (resetBlock s).freeDraws = s.freeDraws := rfl
@[simp] theorem resetBlock_resets : (resetBlock s).resets = s.resets + 1 := rfl
@[simp] theorem resetBlock_readWord : (resetBlock s).readWord = s.readWord := rfl
@[simp] theorem resetBlock_readByte : (resetBlock s).readByte = s.readByte := rfl

end

section

variable (s : State)

@[simp] theorem afterIvDraw_status : s.afterIvDraw.status = s.status := by
  unfold State.afterIvDraw; split <;> rfl
@[simp] theorem afterIvDraw_aw : s.afterIvDraw.aw = s.aw := by
  unfold State.afterIvDraw; split <;> rfl
@[simp] theorem afterIvDraw_ah : s.afterIvDraw.ah = s.ah := by
  unfold State.afterIvDraw; split <;> rfl
@[simp] theorem afterIvDraw_bw : s.afterIvDraw.bw = s.bw := by
  unfold State.afterIvDraw; split <;> rfl
@[simp] theorem afterIvDraw_bh : s.afterIvDraw.bh = s.bh := by
  unfold State.afterIvDraw; split <;> rfl
@[simp] theorem afterIvDraw_alen : s.afterIvDraw.alen = s.alen := by
  unfold State.afterIvDraw; split <;> rfl
@[simp] theorem afterIvDraw_key0 : s.afterIvDraw.key0 = s.key0 := by
  unfold State.afterIvDraw; split <;> rfl
@[simp] theorem afterIvDraw_key1 : s.afterIvDraw.key1 = s.key1 := by
  unfold State.afterIvDraw; split <;> rfl
@[simp] theorem afterIvDraw_ow : s.afterIvDraw.ow = s.ow := by
  unfold State.afterIvDraw; split <;> rfl
@[simp] theorem afterIvDraw_oh : s.afterIvDraw.oh = s.oh := by
  unfold State.afterIvDraw; split <;> rfl
@[simp] theorem afterIvDraw_olen : s.afterIvDraw.olen = s.olen := by
  unfold State.afterIvDraw; split <;> rfl
@[simp] theorem afterIvDraw_inA : s.afterIvDraw.inA = s.inA := by
  unfold State.afterIvDraw; split <;> rfl
@[simp] theorem afterIvDraw_inB : s.afterIvDraw.inB = s.inB := by
  unfold State.afterIvDraw; split <;> rfl
@[simp] theorem afterIvDraw_out : s.afterIvDraw.out = s.out := by
  unfold State.afterIvDraw; split <;> rfl
@[simp] theorem afterIvDraw_curOp : s.afterIvDraw.curOp = s.curOp := by
  unfold State.afterIvDraw; split <;> rfl
@[simp] theorem afterIvDraw_setup : s.afterIvDraw.setup = s.setup := by
  unfold State.afterIvDraw; split <;> rfl
@[simp] theorem afterIvDraw_turns : s.afterIvDraw.turns = s.turns := by
  unfold State.afterIvDraw; split <;> rfl
@[simp] theorem afterIvDraw_freeDraws : s.afterIvDraw.freeDraws = s.freeDraws := by
  unfold State.afterIvDraw; split <;> rfl
@[simp] theorem afterIvDraw_resets : s.afterIvDraw.resets = s.resets := by
  unfold State.afterIvDraw; split <;> rfl
@[simp] theorem afterIvDraw_readWord : s.afterIvDraw.readWord = s.readWord := by
  unfold State.afterIvDraw; split <;> rfl
@[simp] theorem afterIvDraw_readByte : s.afterIvDraw.readByte = s.readByte := by
  unfold State.afterIvDraw; split <;> rfl

/-- The draws that are left after one. -/
theorem afterIvDraw_ivAnswers : s.afterIvDraw.ivAnswers = s.ivAnswers.tail := by
  unfold State.afterIvDraw; split <;> simp_all

/-- An uninterpreted draw is counted, an answer that stood ready is not. -/
theorem afterIvDraw_ivDraws :
    s.afterIvDraw.ivDraws = if s.ivAnswers = [] then s.ivDraws + 1 else s.ivDraws := by
  unfold State.afterIvDraw; split <;> simp_all

/-- Taking a draw changes the random source's answers only. -/
theorem afterIvDraw_eq :
    s.afterIvDraw = { s with ivAnswers := s.afterIvDraw.ivAnswers, ivDraws := s.afterIvDraw.ivDraws } := by
  unfold State.afterIvDraw; split <;> rfl

end

section

variable (r : Reg) (v : Word) (s : State)

@[simp] theorem writeReg_status : (s.writeReg r v).status = s.status := by cases r <;> rfl
@[simp] theorem writeReg_ow : (s.writeReg r v).ow = s.ow := by cases r <;> rfl
@[simp] theorem writeReg_oh : (s.writeReg r v).oh = s.oh := by cases r <;> rfl
@[simp] theorem writeReg_olen : (s.writeReg r v).olen = s.olen := by cases r <;> rfl
@[simp] theorem writeReg_inA : (s.writeReg r v).inA = s.inA := by cases r <;> rfl
@[simp] theorem writeReg_inB : (s.writeReg r v).inB = s.inB := by cases r <;> rfl
@[simp] theorem writeReg_out : (s.writeReg r v).out = s.out := by cases r <;> rfl
@[simp] theorem writeReg_curOp : (s.writeReg r v).curOp = s.curOp := by cases r <;> rfl
@[simp] theorem writeReg_setup : (s.writeReg r v).setup = s.setup := by cases r <;> rfl
@[simp] theorem writeReg_turns : (s.writeReg r v).turns = s.turns := by cases r <;> rfl
@[simp] theorem writeReg_ivAnswers : (s.writeReg r v).ivAnswers = s.ivAnswers := by cases r <;> rfl
@[simp] theorem writeReg_ivDraws : (s.writeReg r v).ivDraws = s.ivDraws := by cases r <;> rfl
@[simp] theorem writeReg_freeDraws : (s.writeReg r v).freeDraws = s.freeDraws := by cases r <;> rfl
@[simp] theorem writeReg_resets : (s.writeReg r v).resets = s.resets := by cases r <;> rfl
@[simp] theorem writeReg_readWord : (s.writeReg r v).readWord = s.readWord := by cases r <;> rfl
@[simp] theorem writeReg_readByte : (s.writeReg r v).readByte = s.readByte := by cases r <;> rfl

/-- A register reads back what the host wrote to it if it is one of the seven RW registers, and keeps its value otherwise (10_state.md R22, R27). -/
theorem readReg_writeReg (r' : Reg) :
    (s.writeReg r v).readReg r' =
      if r' = r ∧ r ∈ [Reg.aw, Reg.ah, Reg.bw, Reg.bh, Reg.alen, Reg.key0, Reg.key1] then v else s.readReg r' := by
  cases r <;> cases r' <;> rfl

end

/-! ## What an update does to derived views -/

@[simp] theorem busy_raiseError (e : ErrorCode) (s : State) : (raiseError e s).busy = false := by
  show statusBusy (errorStatus e) = false
  cases e <;> decide

@[simp] theorem busy_issue (i : Instr) (s : State) : (issue i s).busy = true :=
  show statusBusy busyStatus = true by decide

@[simp] theorem busy_complete (ow oh : Nat) (bytes : List Byte) (s : State) : (complete ow oh bytes s).busy = false :=
  show statusBusy doneStatus = false by decide

@[simp] theorem busy_resetBlock (s : State) : (resetBlock s).busy = false :=
  show statusBusy 0 = false by decide

@[simp] theorem key_issue (i : Instr) (s : State) : (issue i s).key = s.key := rfl

@[simp] theorem byteAt_issue (i : Instr) (s : State) (b : Buf) (a : Nat) : (issue i s).byteAt b a = s.byteAt b a := by
  cases b <;> rfl

@[simp] theorem holds_issue (i : Instr) (s : State) (b : Buf) (n : Nat) : (issue i s).holds b n = s.holds b n := by
  cases b <;> rfl

/-- A command changes neither BUSY's view of another pending turn nor anything else when only the turns differ. -/
@[simp] theorem busy_withTurns (s : State) (ts : List Turn) : State.busy { s with turns := ts } = s.busy := rfl

@[simp] theorem buffer_withTurns (s : State) (ts : List Turn) (b : Buf) :
    State.buffer { s with turns := ts } b = s.buffer b := by cases b <;> rfl

@[simp] theorem readReg_withTurns (s : State) (ts : List Turn) (r : Reg) :
    State.readReg { s with turns := ts } r = s.readReg r := by cases r <;> rfl

@[simp] theorem holds_withTurns (s : State) (ts : List Turn) (b : Buf) (n : Nat) :
    State.holds { s with turns := ts } b n = s.holds b n := by cases b <;> rfl

/-- The error entry is the one the claims write with its status word. -/
theorem raiseError_eq_afterError (e : ErrorCode) (s : State) : raiseError e s = afterError (errorStatus e) s := rfl

/-- The status words of the five errors (60_exceptions.md R178). -/
theorem errorStatus_values :
    errorStatus .dimension = 0x00000016 ∧ errorStatus .format = 0x00000026 ∧ errorStatus .padding = 0x00000036 ∧
      errorStatus .capacity = 0x00000046 ∧ errorStatus .illegalCommand = 0x00000056 := by decide

end Sys2Proof.Machine
end

