-- ==== Sys2Proof/Laws/Memory.lean ====
section
/-! SUPPORT. The laws of the buffers: read after write, the canonical form, byte strings laid out from an offset, the capacity. -/

namespace Sys2Proof.Machine

/-! ## Reading and writing one byte -/

/-- Read after write: the written offset reads the written byte, every other offset what it read before. -/
theorem get?_put (m : Memory) (a : Nat) (v : Byte) (a' : Nat) :
    Memory.get? (Memory.put m a v) a' = if a' = a then some v else Memory.get? m a' := by
  induction m with
  | nil => simp [Memory.put, Memory.get?, eq_comm]
  | cons x rest ih =>
    obtain ⟨k, w⟩ := x
    by_cases ha : a' = a
    · subst ha
      by_cases h1 : a' < k
      · simp [Memory.put, Memory.get?, h1]
      · by_cases h2 : a' = k
        · simp [Memory.put, Memory.get?, h2]
        · simp [Memory.put, Memory.get?, h1, h2, ih, Ne.symm h2]
    · have ha' : a ≠ a' := Ne.symm ha
      by_cases h1 : a < k
      · simp [Memory.put, Memory.get?, h1, ha, ha']
      · by_cases h2 : a = k
        · subst h2
          simp [Memory.put, Memory.get?, ha, ha']
        · simp [Memory.put, Memory.get?, h1, h2, ih, ha]

/-- Writing the same byte twice is writing it once (20_memory.md R59). -/
theorem put_put (m : Memory) (a : Nat) (v : Byte) : Memory.put (Memory.put m a v) a v = Memory.put m a v := by
  induction m with
  | nil => simp [Memory.put]
  | cons x rest ih =>
    obtain ⟨k, w⟩ := x
    by_cases h1 : a < k
    · simp [Memory.put, h1]
    · by_cases h2 : a = k
      · simp [Memory.put, h2]
      · simp [Memory.put, h1, h2, ih]

/-- The canonical form as a statement about all pairs of entries. -/
theorem wf_iff (m : Memory) : Memory.wf m = true ↔ m.Pairwise fun x y => x.1 < y.1 := by
  induction m with
  | nil => simp [Memory.wf]
  | cons x rest ih =>
    cases rest with
    | nil => simp [Memory.wf]
    | cons y rest =>
      simp only [Memory.wf, Bool.and_eq_true, decide_eq_true_eq, ih, List.pairwise_cons (a := x)]
      constructor
      · rintro ⟨hxy, h⟩
        refine ⟨?_, h⟩
        intro z hz
        rcases List.mem_cons.mp hz with rfl | hz
        · exact hxy
        · exact lt_trans hxy ((List.pairwise_cons.mp h).1 z hz)
      · rintro ⟨hx, h⟩
        exact ⟨hx y (by simp), h⟩

/-- The offsets listed after a write: the written one and those before. -/
theorem mem_put {m : Memory} {a : Nat} {v : Byte} {x : Host.Cell} (h : x ∈ Memory.put m a v) : x = (a, v) ∨ x ∈ m := by
  induction m with
  | nil => simpa [Memory.put] using h
  | cons y rest ih =>
    obtain ⟨k, w⟩ := y
    unfold Memory.put at h
    split at h
    · simpa using h
    · split at h
      · rcases List.mem_cons.mp h with h | h
        · exact .inl h
        · exact .inr (List.mem_cons_of_mem _ h)
      · rcases List.mem_cons.mp h with h | h
        · exact .inr (by simp [h])
        · rcases ih h with h | h
          · exact .inl h
          · exact .inr (List.mem_cons_of_mem _ h)

/-- A write keeps the canonical form. -/
theorem put_wf {m : Memory} (a : Nat) (v : Byte) (h : Memory.wf m = true) : Memory.wf (Memory.put m a v) = true := by
  rw [wf_iff] at h ⊢
  induction m with
  | nil => simp [Memory.put]
  | cons y rest ih =>
    obtain ⟨k, w⟩ := y
    obtain ⟨hk, hrest⟩ := List.pairwise_cons.mp h
    unfold Memory.put
    split
    · rename_i hlt
      refine List.pairwise_cons.mpr ⟨?_, h⟩
      intro z hz
      rcases List.mem_cons.mp hz with rfl | hz
      · exact hlt
      · exact lt_trans hlt (hk z hz)
    · split
      · rename_i heq
        refine List.pairwise_cons.mpr ⟨?_, hrest⟩
        intro z hz; rw [heq]; exact hk z hz
      · rename_i hlt hne
        refine List.pairwise_cons.mpr ⟨?_, ih hrest⟩
        intro z hz
        rcases mem_put hz with rfl | hz
        · show k < a
          omega
        · exact hk z hz

/-! ## Byte strings from an offset on -/

/-- The offsets of a byte string laid out from `a`. -/
theorem ofBytes_offsets (a : Nat) (bs : List Byte) :
    (Memory.ofBytes a bs).map Prod.fst = (List.range bs.length).map (a + ·) := by
  induction bs generalizing a with
  | nil => rfl
  | cons b bs ih =>
    simp only [Memory.ofBytes, List.map_cons, List.length_cons, ih, List.range_succ_eq_map, List.map_map]
    simp only [Nat.add_zero, List.cons.injEq, true_and]
    apply List.map_congr_left
    intro i _
    simp only [Function.comp_apply]; omega

/-- The byte string is read back at its offsets, and nothing else is known. -/
theorem get?_ofBytes (a : Nat) (bs : List Byte) (k : Nat) :
    Memory.get? (Memory.ofBytes a bs) k = if k < a then none else bs[k - a]? := by
  induction bs generalizing a with
  | nil => simp [Memory.ofBytes, Memory.get?]
  | cons b bs ih =>
    simp only [Memory.ofBytes, Memory.get?, ih]
    rcases Nat.lt_trichotomy k a with h | h | h
    · rw [if_neg (by omega), if_pos (by omega), if_pos h]
    · subst h; simp
    · rw [if_neg (by omega), if_neg (by omega), if_neg (by omega)]
      have : k - a = (k - (a + 1)) + 1 := by omega
      rw [this, List.getElem?_cons_succ]

@[simp] theorem get?_ofBytes_zero (bs : List Byte) (k : Nat) : Memory.get? (Memory.ofBytes 0 bs) k = bs[k]? := by
  simp [get?_ofBytes]

/-- An offset listed in a byte string from 0 is below its length. -/
theorem mem_ofBytes_lt {bs : List Byte} {x : Host.Cell} (h : x ∈ Memory.ofBytes 0 bs) : x.1 < bs.length := by
  have : x.1 ∈ (Memory.ofBytes 0 bs).map Prod.fst := List.mem_map_of_mem h
  rw [ofBytes_offsets] at this
  simpa using this

/-- A byte string laid out from an offset has the canonical form. -/
theorem ofBytes_wf (a : Nat) (bs : List Byte) : Memory.wf (Memory.ofBytes a bs) = true := by
  rw [wf_iff, ← List.pairwise_map (f := Prod.fst) (R := (· < ·)), ofBytes_offsets, List.pairwise_map]
  exact List.pairwise_lt_range.imp fun h => by omega

/-! ## Capacity -/

@[simp] theorem withinCap_iff (cap n : Nat) : withinCap cap n = true ↔ n ≤ cap := by
  cases n <;> simp [withinCap]

@[simp] theorem withinCap_eq_false_iff (cap n : Nat) : withinCap cap n = false ↔ cap < n := by
  rw [← Bool.not_eq_true, withinCap_iff]; omega

/-- IN_A and IN_B hold CAP bytes (10_state.md R32). -/
theorem holds_inA (s : State) (n : Nat) : s.holds .inA n = true ↔ n ≤ s.setup.cap.val := withinCap_iff _ _

theorem holds_inA_eq_false (s : State) (n : Nat) : s.holds .inA n = false ↔ s.setup.cap.val < n :=
  withinCap_eq_false_iff _ _

theorem holds_inB (s : State) (n : Nat) : s.holds .inB n = true ↔ n ≤ s.setup.cap.val := withinCap_iff _ _

/-- OUT holds CAP + 16 bytes (R32). -/
theorem holds_out (s : State) (n : Nat) : s.holds .out n = true ↔ n ≤ s.setup.cap.val + 16 := by
  simp only [State.holds, withinCap_iff]; omega

/-- CAP is at most 2^32 - 17 (00_scope.md R7), so a length that fits OUT fits a register. -/
theorem cap_lt (s : State) : s.setup.cap.val + 16 < 2 ^ 32 := by
  have := s.setup.cap.isLt; omega

/-- A delivery of bytes that fit OUT is a completion. -/
theorem deliver_eq {ow oh : Nat} {bytes : List Byte} {s : State} (h : bytes.length ≤ s.setup.cap.val + 16) :
    deliver ow oh bytes s = .next (complete ow oh bytes s) := by
  unfold deliver
  rw [if_pos ((holds_out s _).mpr h)]

end Sys2Proof.Machine
end

