-- ==== Sys2Proof/Laws/Envelope.lean ====
section
/-! SUPPORT. The laws of the cipher envelope: blocks and bytes (41_cipher_envelope.md R132), padding (R131, R137), CBC chaining block by block (R133, R136). -/

namespace Sys2Proof.Machine

/-! ## Blocks -/

@[simp] theorem length_toList (b : Block) : (Block.toList b).length = 8 := rfl

theorem toBlocks_toList_append (b : Block) (l : List Byte) : toBlocks (Block.toList b ++ l) = b :: toBlocks l := by
  simp [Block.toList, toBlocks]

@[simp] theorem flatten_nil : flatten [] = [] := rfl

@[simp] theorem flatten_cons (b : Block) (bs : List Block) : flatten (b :: bs) = Block.toList b ++ flatten bs := rfl

@[simp] theorem length_flatten (bs : List Block) : (flatten bs).length = 8 * bs.length := by
  induction bs with
  | nil => rfl
  | cons b bs ih => rw [flatten_cons, List.length_append, ih, length_toList, List.length_cons]; ring

/-- The blocks of the bytes of a sequence of blocks are those blocks. -/
@[simp] theorem toBlocks_flatten (bs : List Block) : toBlocks (flatten bs) = bs := by
  induction bs with
  | nil => rfl
  | cons b bs ih => rw [flatten_cons, toBlocks_toList_append, ih]

/-- A byte string of a multiple of 8 bytes is the bytes of its blocks (R132). -/
theorem flatten_toBlocks (l : List Byte) (h : l.length % 8 = 0) : flatten (toBlocks l) = l := by
  induction l using toBlocks.induct with
  | case1 b0 b1 b2 b3 b4 b5 b6 b7 rest ih =>
    simp only [toBlocks, flatten_cons, Block.toList, List.cons_append, List.nil_append]
    rw [ih (by simp only [List.length_cons] at h; omega)]
  | case2 l hl =>
    match l, hl, h with
    | [], _, _ => rfl
    | [_], _, h => simp at h
    | [_, _], _, h => simp at h
    | [_, _, _], _, h => simp at h
    | [_, _, _, _], _, h => simp at h
    | [_, _, _, _, _], _, h => simp at h
    | [_, _, _, _, _, _], _, h => simp at h
    | [_, _, _, _, _, _, _], _, h => simp at h
    | _ :: _ :: _ :: _ :: _ :: _ :: _ :: _ :: rest, hl, _ => exact absurd rfl (hl _ _ _ _ _ _ _ _ rest)

/-- A byte string of `8 * m` bytes has `m` blocks (R132). -/
theorem length_toBlocks (l : List Byte) (h : l.length % 8 = 0) : (toBlocks l).length = l.length / 8 := by
  have := congrArg List.length (flatten_toBlocks l h)
  rw [length_flatten] at this
  omega

/-- Every byte of a sequence of blocks. -/
theorem blockOf_flatten (bs : List Block) (i : Nat) (hi : i < bs.length) :
    blockOf (fun a => (flatten bs).getD a 0) i = bs[i] := by
  induction bs generalizing i with
  | nil => simp at hi
  | cons b bs ih =>
    cases i with
    | zero => simp [blockOf, Block.toList]
    | succ i =>
      have hstep : ∀ k, (flatten (b :: bs)).getD (8 * (i + 1) + k) 0 = (flatten bs).getD (8 * i + k) 0 := by
        intro k
        have : 8 * (i + 1) + k = 8 * i + k + 8 := by ring
        rw [this, flatten_cons]
        simp [Block.toList]
      have h0 := hstep 0
      have h1 := hstep 1
      have h2 := hstep 2
      have h3 := hstep 3
      have h4 := hstep 4
      have h5 := hstep 5
      have h6 := hstep 6
      have h7 := hstep 7
      simp only [Nat.add_zero] at h0
      have hb : blockOf (fun a => (flatten (b :: bs)).getD a 0) (i + 1) = blockOf (fun a => (flatten bs).getD a 0) i := by
        simp only [blockOf, h0, h1, h2, h3, h4, h5, h6, h7]
      rw [hb, ih i (by simpa using hi)]
      simp

/-- The blocks of a byte string, each read off its bytes (R132). -/
theorem toBlocks_getElem (l : List Byte) (h : l.length % 8 = 0) (i : Nat) (hi : i < (toBlocks l).length) :
    (toBlocks l)[i] = blockOf (fun a => l.getD a 0) i := by
  have := blockOf_flatten (toBlocks l) i hi
  rw [flatten_toBlocks l h] at this
  exact this.symm

/-- A block read off bytes depends on its eight bytes only. -/
theorem blockOf_congr {f g : Nat → Byte} {i : Nat} (h : ∀ a, 8 * i ≤ a → a < 8 * i + 8 → f a = g a) :
    blockOf f i = blockOf g i := by
  unfold blockOf
  rw [h _ (by omega) (by omega), h (8 * i + 1) (by omega) (by omega), h (8 * i + 2) (by omega) (by omega),
    h (8 * i + 3) (by omega) (by omega), h (8 * i + 4) (by omega) (by omega), h (8 * i + 5) (by omega) (by omega),
    h (8 * i + 6) (by omega) (by omega), h (8 * i + 7) (by omega) (by omega)]

/-- Combining a block with another twice gives it back. -/
theorem xor_xor_self (x y : Block) : Block.xor (Block.xor x y) y = x := by
  simp [Block.xor, Block.zipWith]

/-! ## CBC -/

@[simp] theorem length_cbcEnc (enc : Block → Block) (iv : Block) (p : List Block) :
    (cbcEnc enc iv p).length = p.length := by
  induction p generalizing iv with
  | nil => rfl
  | cons p ps ih => simp [cbcEnc, ih]

@[simp] theorem length_cbcDec (dec : Block → Block) (iv : Block) (c : List Block) :
    (cbcDec dec iv c).length = c.length := by
  induction c generalizing iv with
  | nil => rfl
  | cons c cs ih => simp [cbcDec, ih]

/-- R133: each ciphertext block is the encryption of the plaintext block combined with the block before it. -/
theorem cbcEnc_getElem? (enc : Block → Block) (iv : Block) (p : List Block) (i : Nat) :
    (cbcEnc enc iv p)[i]? =
      p[i]?.bind fun b => (iv :: cbcEnc enc iv p)[i]?.map fun prev => enc (Block.xor b prev) := by
  induction p generalizing iv i with
  | nil => simp [cbcEnc]
  | cons p ps ih =>
    cases i with
    | zero => simp [cbcEnc]
    | succ i => simp only [cbcEnc, List.getElem?_cons_succ, ih]

/-- R136: each plaintext block is the decryption of the ciphertext block combined with the block before it. -/
theorem cbcDec_getElem? (dec : Block → Block) (iv : Block) (ct : List Block) (i : Nat) :
    (cbcDec dec iv ct)[i]? = ct[i]?.bind fun b => (iv :: ct)[i]?.map fun prev => Block.xor (dec b) prev := by
  induction ct generalizing iv i with
  | nil => simp [cbcDec]
  | cons b ct ih =>
    cases i with
    | zero => simp [cbcDec]
    | succ i => simp only [cbcDec, List.getElem?_cons_succ, ih]

/-! ## Padding -/

theorem padCount_bounds (len : Nat) : 1 ≤ padCount len ∧ padCount len ≤ 8 := by
  unfold padCount; omega

@[simp] theorem length_pad (b : List Byte) : (pad b).length = b.length + padCount b.length := by simp [pad]

/-- The padded length is a multiple of 8 (R131). -/
theorem length_pad_mod (b : List Byte) : (pad b).length % 8 = 0 := by
  rw [length_pad]; unfold padCount; omega

/-- A pad count fits a byte. -/
theorem toNat_ofNat_of_le {n : Nat} (h : n ≤ 8) : (BitVec.ofNat 8 n).toNat = n := by
  rw [BitVec.toNat_ofNat]; omega

/-- The value of the last byte. -/
theorem padFound_eq {p : List Byte} {v : Byte} (h : p.getLast? = some v) : padFound p = v.toNat := by
  unfold padFound
  rw [List.getLastD_eq_getLast?, h]
  rfl

/-- Bytes that end in `n` filler bytes of value `n` have pad count `n` and pass the test (R137). -/
theorem padFound_of_endsInPadding {p : List Byte} {n : Nat} (hp : 8 ≤ p.length) (h : EndsInPadding p n) :
    padFound p = n := by
  obtain ⟨h1, h8, hall⟩ := h
  have hlast := hall (p.length - 1) (by omega) (by omega)
  rw [← List.getLast?_eq_getElem?] at hlast
  rw [padFound_eq hlast, toNat_ofNat_of_le h8]

/-- The padding test says exactly that the bytes end in valid padding (R137). -/
theorem padOk_iff (p : List Byte) : padOk p = true ↔ EndsInPadding p (padFound p) := by
  unfold padOk EndsInPadding
  simp only [Bool.and_eq_true, decide_eq_true_eq, List.all_eq_true, beq_iff_eq, and_assoc]
  refine and_congr_right fun h1 => and_congr_right fun h8 => ?_
  constructor
  · intro hall a ha hlt
    have hmem : p[a] ∈ p.drop (p.length - padFound p) := by
      rw [List.mem_drop_iff_getElem]
      exact ⟨a - (p.length - padFound p), by omega, by congr 1; omega⟩
    rw [List.getElem?_eq_getElem hlt, Option.some.injEq]
    apply BitVec.eq_of_toNat_eq
    rw [hall _ hmem, toNat_ofNat_of_le h8]
  · intro hall b hb
    obtain ⟨k, hk, rfl⟩ := List.mem_drop_iff_getElem.mp hb
    have := hall (k + (p.length - padFound p)) (by omega) (by omega)
    rw [List.getElem?_eq_getElem (by omega), Option.some.injEq] at this
    have hcomm : p[p.length - padFound p + k] = p[k + (p.length - padFound p)] := by congr 1; omega
    rw [hcomm, this, toNat_ofNat_of_le h8]

/-- A padded plaintext ends in its padding (R131). -/
theorem pad_endsInPadding (b : List Byte) : EndsInPadding (pad b) (padCount b.length) := by
  refine ⟨(padCount_bounds _).1, (padCount_bounds _).2, ?_⟩
  intro a ha hlt
  rw [length_pad] at ha hlt
  unfold pad
  rw [List.getElem?_append_right (by omega), List.getElem?_replicate, if_pos (by omega)]

/-- The padded length is at least a block. -/
theorem eight_le_length_pad (b : List Byte) : 8 ≤ (pad b).length := by
  rw [length_pad]; unfold padCount; omega

theorem padFound_pad (b : List Byte) : padFound (pad b) = padCount b.length :=
  padFound_of_endsInPadding (eight_le_length_pad b) (pad_endsInPadding b)

/-! ## Lengths of the commands' results -/

/-- The bytes of the envelope: IV and one block more than the whole blocks of the plaintext (R134). -/
theorem length_envelopeEnc (c : Cipher) (b : List Byte) (k : Key) (iv : Block) :
    (envelopeEnc c b k iv).length = b.length + 16 - b.length % 8 := by
  unfold envelopeEnc
  rw [List.length_append, length_flatten, length_cbcEnc, length_toBlocks _ (length_pad_mod b), length_pad, length_toList]
  unfold padCount; omega

/-- A blob of legal length is its IV and the blocks of its ciphertext (R138). -/
theorem toBlocks_blob {l : List Byte} (h : formatOk l.length = true) :
    ∃ iv ct, toBlocks l = iv :: ct ∧ ct.length = (l.length - 8) / 8 := by
  simp only [formatOk, Bool.and_eq_true, decide_eq_true_eq] at h
  have hlen := length_toBlocks l (by omega)
  match ht : toBlocks l with
  | [] => rw [ht] at hlen; simp at hlen; omega
  | iv :: ct => rw [ht] at hlen; exact ⟨iv, ct, rfl, by simp at hlen; omega⟩

/-- The decrypted bytes are as many as the ciphertext's (R136, R138). -/
theorem length_decryptBlob (c : Cipher) (k : Key) {l : List Byte} (h : formatOk l.length = true) :
    (decryptBlob c k l).length = l.length - 8 := by
  obtain ⟨iv, ct, ht, hct⟩ := toBlocks_blob h
  simp only [decryptBlob, ht, length_flatten, length_cbcDec, hct]
  simp only [formatOk, Bool.and_eq_true, decide_eq_true_eq] at h
  omega

@[simp] theorem length_bytesOf (s : State) (b : Buf) (n : Nat) : (s.bytesOf b n).length = n := by simp [State.bytesOf]

theorem getElem?_bytesOf (s : State) (b : Buf) (n a : Nat) :
    (s.bytesOf b n)[a]? = if a < n then some (s.byteAt b a) else none := by
  unfold State.bytesOf
  rw [List.getElem?_map]
  split
  · rename_i h; rw [List.getElem?_range h]; rfl
  · rename_i h; rw [List.getElem?_eq_none (by simpa using h)]; rfl

/-- A byte string is determined by its bytes. -/
theorem bytesOf_congr {s s' : State} {b b' : Buf} {n : Nat} (h : ∀ a, a < n → s.byteAt b a = s'.byteAt b' a) :
    s.bytesOf b n = s'.bytesOf b' n := by
  unfold State.bytesOf
  apply List.map_congr_left
  intro a ha
  exact h a (List.mem_range.mp ha)

/-- R135: the length test. -/
theorem formatOk_iff (n : Nat) : formatOk n = true ↔ 16 ≤ n ∧ (n - 8) % 8 = 0 := by
  simp [formatOk]

end Sys2Proof.Machine
end

