-- ==== Sys2Proof/Laws/Images.lean ====
section
/-! SUPPORT. The laws of the pixel codec: the nibble functions bit by bit, the layout of an image byte by byte (20_memory.md R60), the extent as the last non-black pixel of the scan (40_pixel_codec.md R107). -/

namespace Sys2Proof.Machine

/-! ## Nibbles -/

/-- Result bits 7:4 of a merged byte are the carrier's, bits 3:0 the payload's upper four (R100). -/
theorem mergeByte_bit (cb pb : Byte) (i : Nat) (hi : i < 8) :
    (mergeByte cb pb).getLsbD i = if i < 4 then pb.getLsbD (i + 4) else cb.getLsbD i := by
  unfold mergeByte
  interval_cases i <;> simp

/-- Result bits 7:4 of an unmerged byte are the merged byte's bits 3:0, bits 3:0 are 0 (R104). -/
theorem unmergeByte_bit (mb : Byte) (i : Nat) (hi : i < 8) :
    (unmergeByte mb).getLsbD i = if i < 4 then false else mb.getLsbD (i - 4) := by
  unfold unmergeByte
  interval_cases i <;> simp

/-- Bits 7:4 of a byte. -/
theorem upper_bit (b : Byte) (i : Nat) (hi : i < 8) :
    (b &&& 0xF0#8).getLsbD i = if i < 4 then false else b.getLsbD i := by
  interval_cases i <;> simp

/-- A reconstructed byte is 0 exactly when the merged byte's lower nibble is (R106). -/
theorem unmergeByte_eq_zero (mb : Byte) : unmergeByte mb = 0 ↔ mb &&& 0x0F#8 = 0 := by
  revert mb; decide

/-- The pixel is not black exactly when some merged channel has a non-zero lower nibble (R106). -/
theorem nonblack_iff (m : Image) (x y : Nat) : nonblack m x y = true ↔ ∃ c, c < 3 ∧ m.px x y c &&& 0x0F#8 ≠ 0 := by
  have h : ∀ c, ((recon m).px x y c == 0) = true ↔ m.px x y c &&& 0x0F#8 = 0 := by
    intro c
    rw [beq_iff_eq]
    exact unmergeByte_eq_zero _
  constructor
  · intro hn
    by_contra hc
    have hz : ∀ c, c < 3 → m.px x y c &&& 0x0F#8 = 0 := fun c hlt => by
      by_contra hne; exact hc ⟨c, hlt, hne⟩
    unfold nonblack at hn
    rw [(h 0).mpr (hz 0 (by omega)), (h 1).mpr (hz 1 (by omega)), (h 2).mpr (hz 2 (by omega))] at hn
    exact absurd hn (by decide)
  · rintro ⟨c, hc, hne⟩
    unfold nonblack
    rw [Bool.not_eq_true']
    by_contra hn
    rw [Bool.not_eq_false, Bool.and_eq_true, Bool.and_eq_true] at hn
    rcases (by omega : c = 0 ∨ c = 1 ∨ c = 2) with rfl | rfl | rfl
    · exact hne ((h 0).mp hn.1.1)
    · exact hne ((h 1).mp hn.1.2)
    · exact hne ((h 2).mp hn.2)

/-! ## Layout -/

/-- The length of a list of equally long parts. -/
theorem length_flatMap_range {α : Type} (f : Nat → List α) (len n : Nat) (h : ∀ i, (f i).length = len) :
    ((List.range n).flatMap f).length = n * len := by
  induction n with
  | zero => simp
  | succ n ih => simp [List.range_succ, ih, h, Nat.succ_mul]

/-- An element of a list of equally long parts. -/
theorem getElem?_flatMap_range {α : Type} (f : Nat → List α) (len n i k : Nat) (h : ∀ i, (f i).length = len)
    (hi : i < n) (hk : k < len) : ((List.range n).flatMap f)[i * len + k]? = (f i)[k]? := by
  induction n with
  | zero => omega
  | succ n ih =>
    have hlen := length_flatMap_range f len n h
    rw [List.range_succ, List.flatMap_append, List.flatMap_singleton]
    rcases Nat.lt_or_ge i n with hin | hin
    · rw [List.getElem?_append_left, ih hin]
      rw [hlen]
      calc i * len + k < i * len + len := by omega
        _ = (i + 1) * len := by ring
        _ ≤ n * len := Nat.mul_le_mul_right _ hin
    · have : i = n := by omega
      subst this
      rw [List.getElem?_append_right (by omega), hlen]
      congr 1
      omega

/-- The bytes of one pixel. -/
theorem length_pixel (p : Image) (x y : Nat) : ((List.range 3).map fun c => p.px x y c).length = 3 := by simp

/-- The bytes of one row. -/
theorem length_row (p : Image) (y : Nat) :
    ((List.range p.w).flatMap fun x => (List.range 3).map fun c => p.px x y c).length = p.w * 3 :=
  length_flatMap_range _ 3 _ fun x => length_pixel p x y

/-- An image occupies `3 * W * H` bytes (20_memory.md R60). -/
theorem length_layout (p : Image) : (layout p).length = imageBytes p.w p.h := by
  unfold layout imageBytes
  rw [length_flatMap_range _ _ _ (length_row p)]
  ring

/-- The byte of pixel `(x, y)`, channel `c`, stands at its offset (R60). -/
theorem getElem?_layout (p : Image) {x y c : Nat} (hx : x < p.w) (hy : y < p.h) (hc : c < 3) :
    (layout p)[off p.w x y c]? = some (p.px x y c) := by
  have h1 : off p.w x y c = y * (p.w * 3) + (x * 3 + c) := by unfold off; ring
  rw [h1]
  unfold layout
  rw [getElem?_flatMap_range _ (p.w * 3) _ y (x * 3 + c) (length_row p) hy (by omega),
    getElem?_flatMap_range _ 3 _ x c (fun x => length_pixel p x y) hx hc]
  simp [hc]

/-- The bytes of an image depend on its pixels inside the extent only. -/
theorem layout_congr {p q : Image} (hw : p.w = q.w) (hh : p.h = q.h)
    (h : ∀ x y c, x < p.w → y < p.h → c < 3 → p.px x y c = q.px x y c) : layout p = layout q := by
  unfold layout
  rw [← hw, ← hh]
  rw [List.flatMap_congr]
  intro y hy
  rw [List.flatMap_congr]
  intro x hx
  apply List.map_congr_left
  intro c hc
  exact h x y c (List.mem_range.mp hx) (List.mem_range.mp hy) (List.mem_range.mp hc)

/-- An image's offsets lie below its size (R60). -/
theorem off_lt {w h x y c : Nat} (hx : x < w) (hy : y < h) (hc : c < 3) : off w x y c < imageBytes w h := by
  unfold off imageBytes
  have h1 : y * w + x < h * w := by
    calc y * w + x < y * w + w := by omega
      _ = (y + 1) * w := by ring
      _ ≤ h * w := Nat.mul_le_mul_right _ hy
  calc 3 * (y * w + x) + c < 3 * (y * w + x) + 3 := by omega
    _ = 3 * (y * w + x + 1) := by ring
    _ ≤ 3 * (h * w) := by omega
    _ = 3 * w * h := by ring

/-- The payload fits its buffer once it is no larger than the carrier (40_pixel_codec.md R110). -/
theorem imageBytes_mono {w h pw ph : Nat} (hw : pw ≤ w) (hh : ph ≤ h) : imageBytes pw ph ≤ imageBytes w h :=
  Nat.mul_le_mul (Nat.mul_le_mul_left 3 hw) hh

/-! ## The extent -/

/-- The last element of a scan that meets a test decides the running value. -/
theorem foldl_last {α β : Type} (q : α → Bool) (g : α → β) (d : β) (l : List α) (R : α → α → Prop) (h : l.Pairwise R) :
    ((∀ p ∈ l, q p = false) ∧ l.foldl (fun e p => if q p then g p else e) d = d) ∨
    ∃ p ∈ l, q p = true ∧ (∀ p' ∈ l, q p' = true → p' = p ∨ R p' p) ∧
      l.foldl (fun e p => if q p then g p else e) d = g p := by
  induction l using List.reverseRecOn with
  | nil => left; simp
  | append_singleton l a ih =>
    have hl : l.Pairwise R := (List.pairwise_append.mp h).1
    have hla : ∀ p ∈ l, R p a := fun p hp => (List.pairwise_append.mp h).2.2 p hp a (by simp)
    cases hqa : q a with
    | true =>
      right
      refine ⟨a, by simp, hqa, ?_, by simp [hqa]⟩
      intro p' hp' _
      rcases List.mem_append.mp hp' with hp' | hp'
      · exact .inr (hla p' hp')
      · exact .inl (List.mem_singleton.mp hp')
    | false =>
      rcases ih hl with ⟨hnone, hfold⟩ | ⟨p, hp, hqp, hlast, hfold⟩
      · left
        refine ⟨?_, by simp [hqa, hfold]⟩
        intro p hp
        rcases List.mem_append.mp hp with hp | hp
        · exact hnone p hp
        · rw [List.mem_singleton.mp hp]; exact hqa
      · right
        refine ⟨p, by simp [hp], hqp, ?_, by simp [hqa, hfold]⟩
        intro p' hp' hqp'
        rcases List.mem_append.mp hp' with hp' | hp'
        · exact hlast p' hp' hqp'
        · rw [List.mem_singleton.mp hp', hqa] at hqp'
          exact absurd hqp' (by simp)

/-- The coordinates the scan visits. -/
theorem mem_scanOrder {w h : Nat} {p : Nat × Nat} : p ∈ scanOrder w h ↔ p.1 < w ∧ p.2 < h := by
  obtain ⟨x, y⟩ := p
  simp [scanOrder]

/-- The scan visits coordinates with `x` outer and `y` inner, both rising. -/
theorem scanOrder_pairwise (w h : Nat) :
    (scanOrder w h).Pairwise fun p p' => p.1 < p'.1 ∨ (p.1 = p'.1 ∧ p.2 < p'.2) := by
  unfold scanOrder
  rw [List.pairwise_flatMap]
  constructor
  · intro x _
    rw [List.pairwise_map]
    exact List.pairwise_lt_range.imp fun h => .inr ⟨rfl, h⟩
  · apply List.pairwise_lt_range.imp
    intro x x' hx p hp p' hp'
    obtain ⟨y, _, rfl⟩ := List.mem_map.mp hp
    obtain ⟨y', _, rfl⟩ := List.mem_map.mp hp'
    exact .inl hx

/-- R107: the extent is the full merged extent when no pixel is non-black, and else reaches to the last non-black pixel of the scan. -/
theorem extent_spec (m : Image) :
    ((∀ x y, x < m.w → y < m.h → nonblack m x y = false) ∧ extent m = (m.w, m.h)) ∨
    ∃ xs ys, xs < m.w ∧ ys < m.h ∧ nonblack m xs ys = true ∧
      (∀ x y, x < m.w → y < m.h → nonblack m x y = true → x < xs ∨ (x = xs ∧ y ≤ ys)) ∧
      extent m = (xs + 1, ys + 1) := by
  rcases foldl_last (fun p : Nat × Nat => nonblack m p.1 p.2) (fun p => (p.1 + 1, p.2 + 1)) (m.w, m.h)
      (scanOrder m.w m.h) _ (scanOrder_pairwise m.w m.h) with ⟨hnone, hfold⟩ | ⟨⟨xs, ys⟩, hp, hq, hlast, hfold⟩
  · left
    exact ⟨fun x y hx hy => hnone (x, y) (mem_scanOrder.mpr ⟨hx, hy⟩), hfold⟩
  · right
    obtain ⟨hxs, hys⟩ := mem_scanOrder.mp hp
    refine ⟨xs, ys, hxs, hys, hq, ?_, hfold⟩
    intro x y hx hy hn
    rcases hlast (x, y) (mem_scanOrder.mpr ⟨hx, hy⟩) hn with h | h | ⟨h, h'⟩
    · obtain ⟨rfl, rfl⟩ := Prod.mk.inj h
      exact .inr ⟨rfl, le_refl _⟩
    · exact .inl h
    · exact .inr ⟨h, le_of_lt h'⟩

/-- The recovered image is no larger than the merged one (R107, R115). -/
theorem extent_le (m : Image) : (extent m).1 ≤ m.w ∧ (extent m).2 ≤ m.h := by
  rcases extent_spec m with ⟨_, h⟩ | ⟨xs, ys, hx, hy, _, _, h⟩ <;> rw [h] <;> constructor <;> simp only <;> omega

/-- The extent depends on the pixels inside the image only. -/
theorem extent_congr {m m' : Image} (hw : m.w = m'.w) (hh : m.h = m'.h)
    (h : ∀ x y, x < m.w → y < m.h → nonblack m x y = nonblack m' x y) : extent m = extent m' := by
  unfold extent
  rw [← hw, ← hh]
  apply List.foldl_ext
  intro e p hp
  obtain ⟨hx, hy⟩ := mem_scanOrder.mp hp
  rw [h p.1 p.2 hx hy]

end Sys2Proof.Machine
end

