-- ==== Sys2Proof/Laws/Commands.lean ====
section
/-! SUPPORT. What each command does, said once: the completion of a command as one of its errors or one delivery of a result, with no fault branch left (20_memory.md R72, 60_exceptions.md R175, R176). -/

namespace Sys2Proof.Machine

open Host (Outcome)

/-! ## Operand reads -/

theorem readImage_eq {s : State} {b : Buf} {w h : Nat} (hb : s.holds b (imageBytes w h) = true) :
    s.readImage b w h = some (s.img b w h) := by
  unfold State.readImage; rw [if_pos hb]

theorem readBytes_eq {s : State} {b : Buf} {n : Nat} (hb : s.holds b n = true) :
    s.readBytes b n = some (s.bytesOf b n) := by
  unfold State.readBytes; rw [if_pos hb]

@[simp] theorem img_w (s : State) (b : Buf) (w h : Nat) : (s.img b w h).w = w := rfl

@[simp] theorem img_h (s : State) (b : Buf) (w h : Nat) : (s.img b w h).h = h := rfl

@[simp] theorem img_px (s : State) (b : Buf) (w h x y c : Nat) : (s.img b w h).px x y c = s.byteAt b (off w x y c) := rfl

@[simp] theorem mergeImg_w (c p : Image) : (mergeImg c p).w = c.w := rfl

@[simp] theorem mergeImg_h (c p : Image) : (mergeImg c p).h = c.h := rfl

@[simp] theorem unmergeImg_w (m : Image) : (unmergeImg m).w = (extent m).1 := rfl

@[simp] theorem unmergeImg_h (m : Image) : (unmergeImg m).h = (extent m).2 := rfl

/-- The carrier of MERGE and the merged image of UNMERGE (R110, R115). -/
def State.imgA (s : State) : Image := s.img .inA s.aw.toNat s.ah.toNat

/-- The payload of MERGE (R110). -/
def State.imgB (s : State) : Image := s.img .inB s.bw.toNat s.bh.toNat

/-- The byte string of ENVPAD and ENVUNPAD (R140, R150). -/
def State.stringA (s : State) : List Byte := s.bytesOf .inA s.alen.toNat

@[simp] theorem length_stringA (s : State) : s.stringA.length = s.alen.toNat := length_bytesOf _ _ _

/-! ## The commands -/

theorem exec_merge_dimension {s : State} (h : s.aw.toNat < s.bw.toNat ∨ s.ah.toNat < s.bh.toNat) :
    exec .merge s = .next (raiseError .dimension s) := by
  show execMerge s = _
  unfold execMerge
  rw [if_pos h]

theorem exec_merge_capacity {s : State} (hw : s.bw.toNat ≤ s.aw.toNat) (hh : s.bh.toNat ≤ s.ah.toNat)
    (hc : s.setup.cap.val < imageBytes s.aw.toNat s.ah.toNat) :
    exec .merge s = .next (raiseError .capacity s) := by
  show execMerge s = _
  unfold execMerge
  exact (if_neg (by omega)).trans (if_pos ((holds_inA_eq_false s _).mpr hc))

theorem exec_merge_result {s : State} (hw : s.bw.toNat ≤ s.aw.toNat) (hh : s.bh.toNat ≤ s.ah.toNat)
    (hc : imageBytes s.aw.toNat s.ah.toNat ≤ s.setup.cap.val) :
    exec .merge s = .next (complete s.aw.toNat s.ah.toNat (layout (mergeImg s.imgA s.imgB)) s) := by
  have hA : s.holds .inA (imageBytes s.aw.toNat s.ah.toNat) = true := (holds_inA s _).mpr hc
  have hB : s.holds .inB (imageBytes s.bw.toNat s.bh.toNat) = true :=
    (holds_inB s _).mpr (le_trans (imageBytes_mono hw hh) hc)
  show execMerge s = _
  unfold execMerge
  simp only [readImage_eq hA, readImage_eq hB, hA]
  rw [if_neg (by omega), if_neg (by simp)]
  refine deliver_eq ?_
  rw [length_layout]
  show imageBytes s.aw.toNat s.ah.toNat ≤ _
  omega

theorem exec_unmerge_capacity {s : State} (hc : s.setup.cap.val < imageBytes s.aw.toNat s.ah.toNat) :
    exec .unmerge s = .next (raiseError .capacity s) := by
  show execUnmerge s = _
  unfold execUnmerge
  exact if_pos ((holds_inA_eq_false s _).mpr hc)

theorem exec_unmerge_result {s : State} (hc : imageBytes s.aw.toNat s.ah.toNat ≤ s.setup.cap.val) :
    exec .unmerge s =
      .next (complete (extent s.imgA).1 (extent s.imgA).2 (layout (unmergeImg s.imgA)) s) := by
  have hA : s.holds .inA (imageBytes s.aw.toNat s.ah.toNat) = true := (holds_inA s _).mpr hc
  show execUnmerge s = _
  unfold execUnmerge
  simp only [readImage_eq hA, hA]
  rw [if_neg (by simp)]
  refine deliver_eq ?_
  have hle := extent_le s.imgA
  rw [length_layout]
  have : imageBytes (extent s.imgA).1 (extent s.imgA).2 ≤ imageBytes s.aw.toNat s.ah.toNat := imageBytes_mono hle.1 hle.2
  simp only [unmergeImg_w, unmergeImg_h, State.imgA] at this ⊢
  omega

theorem exec_envpad_capacity {s : State} (hc : s.setup.cap.val < s.alen.toNat) :
    exec .envpad s = .next (raiseError .capacity s) := by
  show execEnvpad s = _
  unfold execEnvpad
  exact if_pos ((holds_inA_eq_false s _).mpr hc)

theorem exec_envpad_result {s : State} (hc : s.alen.toNat ≤ s.setup.cap.val) :
    exec .envpad s =
      .next (complete 0 0 (envelopeEnc s.setup.cipher s.stringA s.key s.nextIv) s.afterIvDraw) := by
  have hA : s.holds .inA s.alen.toNat = true := (holds_inA s _).mpr hc
  show execEnvpad s = _
  unfold execEnvpad
  simp only [readBytes_eq hA, hA]
  rw [if_neg (by simp)]
  refine deliver_eq ?_
  rw [length_envelopeEnc, length_bytesOf, afterIvDraw_setup]
  omega

theorem exec_envunpad_format {s : State} (hf : formatOk s.alen.toNat = false) :
    exec .envunpad s = .next (raiseError .format s) := by
  show execEnvunpad s = _
  unfold execEnvunpad
  rw [if_pos hf]

theorem exec_envunpad_capacity {s : State} (hf : formatOk s.alen.toNat = true) (hc : s.setup.cap.val < s.alen.toNat) :
    exec .envunpad s = .next (raiseError .capacity s) := by
  show execEnvunpad s = _
  unfold execEnvunpad
  exact (if_neg (by simp [hf])).trans (if_pos ((holds_inA_eq_false s _).mpr hc))

theorem exec_envunpad_padding {s : State} (hf : formatOk s.alen.toNat = true) (hc : s.alen.toNat ≤ s.setup.cap.val)
    (hp : padOk (decryptBlob s.setup.cipher s.key s.stringA) = false) :
    exec .envunpad s = .next (raiseError .padding s) := by
  have hA : s.holds .inA s.alen.toNat = true := (holds_inA s _).mpr hc
  show execEnvunpad s = _
  unfold execEnvunpad
  simp only [readBytes_eq hA, hA, hf]
  rw [if_neg (by simp), if_neg (by simp)]
  exact if_pos hp

theorem exec_envunpad_result {s : State} (hf : formatOk s.alen.toNat = true) (hc : s.alen.toNat ≤ s.setup.cap.val)
    (hp : padOk (decryptBlob s.setup.cipher s.key s.stringA) = true) :
    exec .envunpad s = .next (complete 0 0 (unpad (decryptBlob s.setup.cipher s.key s.stringA)) s) := by
  have hA : s.holds .inA s.alen.toNat = true := (holds_inA s _).mpr hc
  show execEnvunpad s = _
  unfold execEnvunpad
  simp only [readBytes_eq hA, hA, hf]
  rw [if_neg (by simp), if_neg (by simp)]
  refine (if_neg (by simpa [State.stringA] using hp)).trans (deliver_eq ?_)
  unfold unpad
  have hlen := length_decryptBlob s.setup.cipher s.key (l := s.bytesOf .inA s.alen.toNat) (by simpa using hf)
  rw [length_bytesOf] at hlen
  rw [List.length_take, hlen]
  omega

/-- The cases of a command's completion: one of its errors, or a delivery of bytes that fit OUT, from the state it found or, for ENVPAD, the state after its draw. -/
theorem exec_cases (i : Instr) (s : State) :
    (∃ e, e ≠ .illegalCommand ∧ exec i s = .next (raiseError e s)) ∨
    ∃ ow oh bytes s', exec i s = .next (complete ow oh bytes s') ∧ bytes.length ≤ s.setup.cap.val + 16 ∧
      (s' = s ∨ (i = .envpad ∧ s.alen.toNat ≤ s.setup.cap.val ∧ s' = s.afterIvDraw)) := by
  cases i with
  | merge =>
    by_cases hd : s.aw.toNat < s.bw.toNat ∨ s.ah.toNat < s.bh.toNat
    · exact .inl ⟨_, by simp, exec_merge_dimension hd⟩
    · rcases Nat.lt_or_ge s.setup.cap.val (imageBytes s.aw.toNat s.ah.toNat) with hc | hc
      · exact .inl ⟨_, by simp, exec_merge_capacity (by omega) (by omega) hc⟩
      · refine .inr ⟨_, _, _, s, exec_merge_result (by omega) (by omega) hc, ?_, .inl rfl⟩
        rw [length_layout]
        exact le_trans hc (Nat.le_add_right _ _)
  | unmerge =>
    rcases Nat.lt_or_ge s.setup.cap.val (imageBytes s.aw.toNat s.ah.toNat) with hc | hc
    · exact .inl ⟨_, by simp, exec_unmerge_capacity hc⟩
    · refine .inr ⟨_, _, _, s, exec_unmerge_result hc, ?_, .inl rfl⟩
      have hle := extent_le s.imgA
      rw [length_layout]
      exact le_trans (imageBytes_mono hle.1 hle.2) (le_trans hc (Nat.le_add_right _ _))
  | envpad =>
    rcases Nat.lt_or_ge s.setup.cap.val s.alen.toNat with hc | hc
    · exact .inl ⟨_, by simp, exec_envpad_capacity hc⟩
    · refine .inr ⟨_, _, _, _, exec_envpad_result hc, ?_, .inr ⟨rfl, hc, rfl⟩⟩
      rw [length_envelopeEnc, length_stringA]
      omega
  | envunpad =>
    cases hf : formatOk s.alen.toNat with
    | false => exact .inl ⟨_, by simp, exec_envunpad_format hf⟩
    | true =>
      rcases Nat.lt_or_ge s.setup.cap.val s.alen.toNat with hc | hc
      · exact .inl ⟨_, by simp, exec_envunpad_capacity hf hc⟩
      · cases hp : padOk (decryptBlob s.setup.cipher s.key s.stringA) with
        | false => exact .inl ⟨_, by simp, exec_envunpad_padding hf hc hp⟩
        | true =>
          refine .inr ⟨_, _, _, s, exec_envunpad_result hf hc hp, ?_, .inl rfl⟩
          unfold unpad
          rw [List.length_take, length_decryptBlob _ _ (by simpa using hf), length_stringA]
          omega

/-- No command stops: the completion step can always be taken (30_encoding.md R92). -/
theorem exec_next (i : Instr) (s : State) : ∃ t, exec i s = .next t := by
  rcases exec_cases i s with ⟨_, _, h⟩ | ⟨_, _, _, _, h, _⟩ <;> exact ⟨_, h⟩

end Sys2Proof.Machine
end

