-- ==== Sys2Proof/Laws/Encoding.lean ====
section
/-! SUPPORT. The laws of the command words: fields of an encoded command, what a decoded word is (30_encoding.md R80, R81). -/

namespace Sys2Proof

@[simp] theorem decode_encode (i : Instr) : decode (encode i) = .ok i := by cases i <;> decide

/-- A word is its field `ZERO` over its field `OPCODE` (R80). -/
theorem word_eq_fields (w : Word) : w = zeroField w ++ opcodeField w := by
  apply BitVec.eq_of_toNat_eq
  simp only [zeroField, opcodeField, BitVec.toNat_append, BitVec.extractLsb'_toNat]
  have := w.isLt
  rw [Nat.shiftRight_zero, ← Nat.shiftLeft_add_eq_or_of_lt (by omega), Nat.shiftLeft_eq, Nat.shiftRight_eq_div_pow]
  omega

/-- A word that decodes to a command is that command's word (R81). -/
theorem eq_encode_of_decode {w : Word} {i : Instr} (h : decode w = .ok i) : w = encode i := by
  unfold decode at h
  split at h
  · cases h
  · rename_i hz
    have hz : zeroField w = 0 := by simpa using hz
    have hw := word_eq_fields w
    rw [hz] at hw
    have hop : opcodeField w = i.opcode := by
      apply BitVec.eq_of_toNat_eq
      split at h <;> cases h <;> (rename_i hop; rw [hop]; rfl)
    rw [hop] at hw
    exact hw

/-- Decoding and encoding agree on every word (R81). -/
theorem decode_eq_ok_iff {w : Word} {i : Instr} : decode w = .ok i ↔ w = encode i :=
  ⟨eq_encode_of_decode, fun h => h ▸ decode_encode i⟩

/-- A word that is none of the four is illegal (R84). -/
theorem decode_illegal {w : Word} (h : ∀ i, w ≠ encode i) : ∃ r, decode w = .error r := by
  cases hd : decode w with
  | ok i => exact absurd (eq_encode_of_decode hd) (h i)
  | error r => exact ⟨r, rfl⟩

end Sys2Proof
end

