-- ==== Sys2Proof/Laws/Turns.lean ====
section
/-! SUPPORT. What a register access means, what each turn can do, and the step on a state with a pending turn. -/

namespace Sys2Proof.Machine

open Host (Outcome)

/-! ## Register accesses -/

/-- The whole-register access of a register is that register (20_memory.md R51). -/
@[simp] theorem regAt_offset (r : Reg) : regAt r.offset 32 = .ok r := by cases r <;> rfl

/-- An access that means a register is the 32-bit access at its offset (R51, R54). -/
theorem eq_of_regAt {offset width : Nat} {r : Reg} (h : regAt offset width = .ok r) : width = 32 ∧ offset = r.offset := by
  unfold regAt at h
  split at h
  · cases h
  · split at h
    · cases h
    · rename_i hw hm
      split at h
      · rename_i r' hr
        cases h
        refine ⟨by omega, ?_⟩
        have hq : offset = 4 * (offset / 4) := by omega
        rw [hq]
        generalize offset / 4 = q at hr
        unfold Reg.ofNumber? at hr
        split at hr <;> cases hr <;> rfl
      · cases h

/-- The legal register accesses are those that mean a register (R51, R54). -/
theorem legalRegAccess_iff (offset width : Nat) : legalRegAccess offset width = true ↔ ∃ r, regAt offset width = .ok r := by
  constructor
  · intro h
    simp only [legalRegAccess, Bool.and_eq_true, beq_iff_eq, decide_eq_true_eq] at h
    obtain ⟨⟨hw, hm⟩, hlt⟩ := h
    have hq : offset = 4 * (offset / 4) := by omega
    have hq12 : offset / 4 < 12 := by omega
    subst hw
    rw [hq]
    generalize offset / 4 = q at hq12
    interval_cases q <;> exact ⟨_, rfl⟩
  · rintro ⟨r, h⟩
    obtain ⟨rfl, rfl⟩ := eq_of_regAt h
    cases r <;> rfl

/-- An access that means no register is refused by name (R54). -/
theorem regAt_error {offset width : Nat} (h : 0x30 ≤ offset ∨ offset % 4 ≠ 0 ∨ width ≠ 32) :
    ∃ r, regAt offset width = .error r := by
  cases hr : regAt offset width with
  | error r => exact ⟨r, rfl⟩
  | ok r =>
    obtain ⟨rfl, rfl⟩ := eq_of_regAt hr
    cases r <;> simp [Reg.offset, Reg.number] at h

/-- The accesses of `CMD` and STATUS by their offsets. -/
theorem regAt_cmd : regAt 0x00 32 = .ok .cmd := rfl

theorem regAt_status : regAt 0x04 32 = .ok .status := rfl

/-- A host write of a word to `CMD` of an idle block (20_memory.md R53). -/
theorem hostAction_writeCmd {s : State} (w : Word) (h : s.busy = false) :
    hostAction (.regWrite 0x00 32 w) s = .next (issueCommand w s) := by
  simp [hostAction, hostRegWrite, regAt_cmd, h]

/-! ## Turns -/

@[simp] theorem performTurn_host (x : HostAction) (s : State) : performTurn (.host x) s = hostAction x s := rfl

@[simp] theorem performTurn_command (w : Word) (s : State) : performTurn (.command w) s = fusedCommand w s := rfl

@[simp] theorem performTurn_engine (s : State) : performTurn .engine s = engineTurn s := rfl

@[simp] theorem performTurn_reset (s : State) : performTurn .reset s = .next (resetBlock s) := rfl

/-- A step with a pending turn performs it on the state without it. -/
theorem step_cons {s : State} {t : Turn} {rest : List Turn} (h : s.turns = t :: rest) :
    step s = performTurn t { s with turns := rest } := by
  simp only [step, nextTurn, h]

/-- A step with no pending turn is the engine's. -/
theorem step_nil {s : State} (h : s.turns = []) : step s = engineTurn s := by
  simp only [step, nextTurn, h]

/-- A run of no step. -/
theorem run_zero (s : State) : core.run 0 s = .next s := rfl

/-- A run goes on from the first step's next state and stops where that step stops. -/
theorem run_succ_of_next {k : Nat} {s t : State} (h : step s = .next t) : core.run (k + 1) s = core.run k t := by
  have e := Host.Core.run.eq_2 core s k
  rw [show core.step s = .next t from h] at e
  exact e

theorem run_succ_of_refused {k : Nat} {s : State} {r : Refusal} (h : step s = .refused r) :
    core.run (k + 1) s = .refused r := by
  have e := Host.Core.run.eq_2 core s k
  rw [show core.step s = .refused r from h] at e
  exact e

/-- A run of one step is the step. -/
theorem run_one (s : State) : core.run 1 s = step s := by
  refine (Host.Core.run.eq_2 core s 0).trans ?_
  have this : core.step s = step s := rfl
  cases h : step s <;> rw [h] at this <;> rw [this] <;> rfl

theorem engineTurn_idle {s : State} (h : s.busy = false) : engineTurn s = .next s := by
  unfold engineTurn; rw [if_neg (by simp [h])]

theorem engineTurn_busy {s : State} {i : Instr} (h : s.busy = true) (hi : s.curOp = some i) : engineTurn s = exec i s := by
  unfold engineTurn; rw [if_pos h, hi]

/-- The next states of a write of a word to `CMD`: the issue of a command or the report of an illegal word (30_encoding.md R84, R85). -/
theorem issueCommand_cases (w : Word) (s : State) :
    (∃ i, decode w = .ok i ∧ issueCommand w s = issue i s) ∨
    (∃ r, decode w = .error r ∧ issueCommand w s = raiseError .illegalCommand s) := by
  unfold issueCommand
  cases hd : decode w with
  | ok i => exact .inl ⟨i, rfl, rfl⟩
  | error r => exact .inr ⟨r, rfl, rfl⟩

/-- The next states of the engine's turn. -/
theorem engineTurn_cases {s t : State} (h : engineTurn s = .next t) :
    (s.busy = false ∧ t = s) ∨ ∃ i, s.busy = true ∧ s.curOp = some i ∧ exec i s = .next t := by
  unfold engineTurn at h
  split at h
  · rename_i hb
    split at h
    · rename_i i hi; exact .inr ⟨i, hb, hi, h⟩
    · cases h
  · rename_i hb
    cases h
    exact .inl ⟨by simpa using hb, rfl⟩

/-- The next states of the fused command. -/
theorem fusedCommand_cases {w : Word} {s t : State} (h : fusedCommand w s = .next t) :
    s.busy = false ∧ ((∃ i, decode w = .ok i ∧ exec i (issue i s) = .next t) ∨
      (∃ r, decode w = .error r ∧ t = raiseError .illegalCommand s)) := by
  unfold fusedCommand at h
  split at h
  · cases h
  · rename_i hb
    refine ⟨by simpa using hb, ?_⟩
    cases hd : decode w with
    | ok i => rw [hd] at h; exact .inl ⟨i, rfl, h⟩
    | error r => rw [hd] at h; cases h; exact .inr ⟨r, rfl, rfl⟩

/-- The next states of the host's actions (20_memory.md R52 to R57). -/
theorem hostAction_cases {x : HostAction} {s t : State} (h : hostAction x s = .next t) :
    (∃ r, x = .regRead r.offset 32 ∧ (s.busy = true → r = .status) ∧ t = { s with readWord := s.readReg r }) ∨
    (∃ v, x = .regWrite 0x00 32 v ∧ s.busy = false ∧ t = issueCommand v s) ∨
    (∃ r v, x = .regWrite r.offset 32 v ∧ s.busy = false ∧ r ≠ .cmd ∧ t = s.writeReg r v) ∨
    (∃ b a, x = .bufRead b a ∧ s.busy = false ∧ s.holds b (a + 1) = true ∧
      (t = { s with readByte := t.readByte } ∨ t = { s with readByte := t.readByte, freeDraws := s.freeDraws + 1 })) ∨
    (∃ b a v, x = .bufWrite b a v ∧ s.busy = false ∧ s.holds b (a + 1) = true ∧
      ((b = .inA ∧ t = { s with inA := Memory.put s.inA a (s.hostByte v) }) ∨
        (b = .inB ∧ t = { s with inB := Memory.put s.inB a (s.hostByte v) }) ∨ (b = .out ∧ t = s))) := by
  cases x with
  | regRead offset width =>
    left
    simp only [hostAction, hostRegRead] at h
    split at h
    · cases h
    · rename_i r hr
      obtain ⟨rfl, rfl⟩ := eq_of_regAt hr
      split at h
      · cases h
      · rename_i hb
        cases h
        refine ⟨r, rfl, fun hbusy => ?_, rfl⟩
        simpa [hbusy] using hb
  | regWrite offset width v =>
    simp only [hostAction, hostRegWrite] at h
    split at h
    · cases h
    · rename_i r hr
      obtain ⟨rfl, rfl⟩ := eq_of_regAt hr
      split at h
      · cases h
      · rename_i hb
        have hb : s.busy = false := by simpa using hb
        split at h
        · rename_i hcmd
          subst hcmd
          cases h
          exact .inr (.inl ⟨v, rfl, hb, rfl⟩)
        · rename_i hcmd
          cases h
          exact .inr (.inr (.inl ⟨r, v, rfl, hb, hcmd, rfl⟩))
  | bufRead b a =>
    simp only [hostAction, hostBufRead] at h
    split at h
    · cases h
    · rename_i hb
      have hb : s.busy = false := by simpa using hb
      split at h
      · cases h
      · rename_i hh
        refine .inr (.inr (.inr (.inl ⟨b, a, rfl, hb, by simpa using hh, ?_⟩)))
        split at h <;> cases h
        · exact .inl rfl
        · exact .inr rfl
  | bufWrite b a v =>
    simp only [hostAction, hostBufWrite] at h
    split at h
    · cases h
    · rename_i hb
      have hb : s.busy = false := by simpa using hb
      split at h
      · cases h
      · rename_i hh
        refine .inr (.inr (.inr (.inr ⟨b, a, v, rfl, hb, by simpa using hh, ?_⟩)))
        cases b <;> cases h
        · exact .inl ⟨rfl, rfl⟩
        · exact .inr (.inl ⟨rfl, rfl⟩)
        · exact .inr (.inr ⟨rfl, rfl⟩)

/-- The capacity of a buffer as a bound on offsets (10_state.md R32). -/
theorem holds_succ (s : State) (b : Buf) (a : Nat) :
    s.holds b (a + 1) = true ↔ a < if b = .out then s.setup.cap.val + 16 else s.setup.cap.val := by
  cases b
  · rw [holds_inA]; simp only [reduceCtorEq, if_false]; omega
  · rw [holds_inB]; simp only [reduceCtorEq, if_false]; omega
  · rw [holds_out]; simp only [if_true]; omega

end Sys2Proof.Machine
end

