-- ==== Sys2Proof/Laws/Invariant.lean ====
section
/-! SUPPORT. What keeps the invariant (Safety.lean), what a command leaves as it was, and the fields of STATUS after a command. -/

namespace Sys2Proof.Machine

/-! ## STATUS after a command (10_state.md R25) -/

/-- The code of an error stands in `STATUS.ECODE` (60_exceptions.md R178). -/
theorem ecode_raise (e : ErrorCode) (s : State) : statusEcode (raiseError e s).status = e.code := by
  rw [raiseError_status]; cases e <;> decide

/-- A completion without error has code 0 (30_encoding.md R86). -/
theorem ecode_complete (ow oh : Nat) (bytes : List Byte) (s : State) : statusEcode (complete ow oh bytes s).status = 0 := by rw [complete_status]; decide

theorem err_raise (e : ErrorCode) (s : State) : statusErr (raiseError e s).status = true := by
  rw [raiseError_status]; cases e <;> decide

theorem err_complete (ow oh : Nat) (bytes : List Byte) (s : State) : statusErr (complete ow oh bytes s).status = false := by rw [complete_status]; decide

/-- A command ends in an idle block with DONE set and no opcode latched (30_encoding.md R86). -/
theorem exec_done {i : Instr} {s t : State} (h : exec i s = .next t) :
    t.busy = false ∧ statusDone t.status = true ∧ t.curOp = none := by
  rcases exec_cases i s with ⟨e, _, he⟩ | ⟨ow, oh, bytes, s', he, _⟩
  · rw [he] at h; cases h
    exact ⟨busy_raiseError _ _, by rw [raiseError_status]; cases e <;> decide, rfl⟩
  · rw [he] at h; cases h
    exact ⟨busy_complete _ _ _ _, by rw [complete_status]; decide, rfl⟩

/-- The only legal STATUS with BUSY set (10_state.md R25). -/
theorem busy_status {s : State} (hl : legalStatus s.status = true) (hb : s.busy = true) : s.status = 1 := by
  unfold State.busy at hb
  simp [legalStatus] at hl
  rcases hl with h | h | h | h | h | h | h | h <;> rw [h] at hb ⊢ <;> revert hb <;> decide

/-! ## What a command leaves -/

/-- What a command can change at all (10_state.md R28, R33). -/
theorem exec_frame {i : Instr} {s t : State} (h : exec i s = .next t) :
    t = { s with
      status := t.status, ow := t.ow, oh := t.oh, olen := t.olen, out := t.out, curOp := none
      ivAnswers := t.ivAnswers, ivDraws := t.ivDraws } := by
  rcases exec_cases i s with ⟨e, _, he⟩ | ⟨ow, oh, bytes, s', he, _, hs⟩
  · rw [he] at h; cases h; rfl
  · rw [he] at h; cases h
    rcases hs with rfl | ⟨_, _, rfl⟩
    · rfl
    · unfold complete
      conv_lhs => rw [afterIvDraw_eq]

/-- What no command changes. -/
theorem exec_kept {i : Instr} {s t : State} (h : exec i s = .next t) :
    t.setup = s.setup ∧ t.aw = s.aw ∧ t.ah = s.ah ∧ t.bw = s.bw ∧ t.bh = s.bh ∧ t.alen = s.alen ∧ t.key0 = s.key0 ∧
      t.key1 = s.key1 ∧ t.inA = s.inA ∧ t.inB = s.inB := by
  rw [exec_frame h]; simp

/-- A command changes no operand and no key register (10_state.md R28). -/
theorem readReg_exec {i : Instr} {s t : State} (h : exec i s = .next t) (r : Reg)
    (hr : r ∈ [Reg.aw, Reg.ah, Reg.bw, Reg.bh, Reg.alen, Reg.key0, Reg.key1]) : t.readReg r = s.readReg r := by
  obtain ⟨_, h1, h2, h3, h4, h5, h6, h7, _, _⟩ := exec_kept h
  simp at hr
  rcases hr with rfl | rfl | rfl | rfl | rfl | rfl | rfl <;> assumption

/-- A command changes no input buffer (10_state.md R33). -/
theorem buffer_exec {i : Instr} {s t : State} (h : exec i s = .next t) (b : Buf) (hb : b ≠ .out) :
    t.buffer b = s.buffer b := by
  obtain ⟨_, _, _, _, _, _, _, _, h8, h9⟩ := exec_kept h
  cases b
  · exact h8
  · exact h9
  · exact absurd rfl hb

/-! ## The invariant -/

/-- The invariant does not speak of the coming turns. -/
theorem inv_turns {s : State} (ts : List Turn) (h : Inv s) : Inv { s with turns := ts } :=
  ⟨h.1, h.2, h.3, h.4, h.5, h.6, h.7, h.8, h.9, h.10⟩

/-- An error keeps the invariant. -/
theorem inv_raiseError {s : State} (e : ErrorCode) (h : Inv s) : Inv (raiseError e s) where
  status_legal := by rw [raiseError_status]; cases e <;> decide
  latched_iff_busy := by simp
  inA_wf := h.inA_wf
  inB_wf := h.inB_wf
  out_wf := rfl
  inA_inside := h.inA_inside
  inB_inside := h.inB_inside
  out_inside := by simp
  out_is_result := by simp
  no_result := by simp

/-- A completion without error keeps the invariant. -/
theorem inv_complete {s s' : State} {ow oh : Nat} {bytes : List Byte} (h : Inv s) (hs : s' = s ∨ s' = s.afterIvDraw)
    (hl : bytes.length ≤ s.setup.cap.val + 16) : Inv (complete ow oh bytes s') := by
  have hset : s'.setup = s.setup := by rcases hs with rfl | rfl <;> simp
  have hA : s'.inA = s.inA := by rcases hs with rfl | rfl <;> simp
  have hB : s'.inB = s.inB := by rcases hs with rfl | rfl <;> simp
  have hcap := cap_lt s
  exact {
    status_legal := by rw [complete_status]; decide
    latched_iff_busy := by simp
    inA_wf := by simpa [hA] using h.inA_wf
    inB_wf := by simpa [hB] using h.inB_wf
    out_wf := ofBytes_wf _ _
    inA_inside := by simpa [hA, hset] using h.inA_inside
    inB_inside := by simpa [hB, hset] using h.inB_inside
    out_inside := by
      intro x hx
      have := mem_ofBytes_lt hx
      rw [complete_setup, hset]; omega
    out_is_result := by
      intro _
      rw [complete_out, complete_olen, ofBytes_offsets, BitVec.toNat_ofNat, Nat.mod_eq_of_lt (by omega)]
      simp
    no_result := fun _ hne => absurd (complete_status ..) hne }

/-- The issue of a command keeps the invariant. -/
theorem inv_issue {s : State} (i : Instr) (h : Inv s) : Inv (issue i s) where
  status_legal := by rw [issue_status]; decide
  latched_iff_busy := by simp
  inA_wf := h.inA_wf
  inB_wf := h.inB_wf
  out_wf := h.out_wf
  inA_inside := h.inA_inside
  inB_inside := h.inB_inside
  out_inside := h.out_inside
  out_is_result := by simp
  no_result := by simp

/-- A command keeps the invariant. -/
theorem inv_exec {i : Instr} {s t : State} (h : Inv s) (he : exec i s = .next t) : Inv t := by
  rcases exec_cases i s with ⟨e, _, he'⟩ | ⟨ow, oh, bytes, s', he', hl, hs⟩
  · rw [he'] at he; cases he; exact inv_raiseError e h
  · rw [he'] at he; cases he
    exact inv_complete h (hs.imp id fun h => h.2.2) hl

/-- A buffer write inside the buffer lists no byte outside it. -/
theorem put_inside {m : Memory} {a : Nat} {v : Byte} {n : Nat} (h : ∀ x ∈ m, x.1 < n) (ha : a < n) :
    ∀ x ∈ Memory.put m a v, x.1 < n := by
  intro x hx
  rcases mem_put hx with rfl | hx
  · exact ha
  · exact h x hx

end Sys2Proof.Machine
end

