-- ==== Sys2Proof/Laws/PerInstr.lean ====
section
/-! SUPPORT. The statement made per command: its opcode is one of the four, its word is legal, carries the opcode in bits 7:0 and zeros above, and decodes to the command (30_encoding.md R80, R81, R82). -/

namespace Sys2Proof.Laws.CommandWord

/-- What holds of the encoding of every command. -/
def Statement (i : Instr) : Prop :=
  i.wellFormed = true ∧ legalWord (encode i) = true ∧ opcodeField (encode i) = i.opcode ∧ zeroField (encode i) = 0 ∧
    decode (encode i) = .ok i ∧ decodeTableWord 32 (encode i).toNat = some i

theorem merge : Statement .merge := by unfold Statement; decide

theorem unmerge : Statement .unmerge := by unfold Statement; decide

theorem envpad : Statement .envpad := by unfold Statement; decide

theorem envunpad : Statement .envunpad := by unfold Statement; decide

end Sys2Proof.Laws.CommandWord
end

