-- ==== Sys2Proof/Laws/Script.lean ====
section
/-! SUPPORT. The turns of the host script one by one (30_encoding.md R90, R91), and the bytes of a packed word (10_state.md R23). -/

namespace Sys2Proof.Machine

/-- A host write of a byte of IN_A or IN_B of an idle block (20_memory.md R56). -/
theorem step_bufWrite (s : State) (b : Buf) (a : Nat) (v : HostByte) (rest : List Turn) (hb : s.busy = false) (ho : b ≠ .out)
    (ha : a < s.setup.cap.val) (ht : s.turns = .host (.bufWrite b a v) :: rest) :
    ∃ t, step s = .next t ∧ (∀ a', Memory.get? (t.buffer b) a' = if a' = a then some (s.hostByte v) else Memory.get? (s.buffer b) a') ∧
      t = { s with turns := rest, inA := t.inA, inB := t.inB } ∧ (∀ b', b' ≠ b → t.buffer b' = s.buffer b') := by
  rw [step_cons ht]
  have hh : State.holds { s with turns := rest } b (a + 1) = true := by rw [holds_succ, if_neg ho]; exact ha
  have hb' : State.busy { s with turns := rest } = false := hb
  rw [performTurn_host]
  unfold hostAction
  dsimp only
  unfold hostBufWrite
  rw [if_neg (by rw [hb']; simp), if_neg (by rw [hh]; simp)]
  cases b with
  | out => exact absurd rfl ho
  | inA =>
    refine ⟨_, rfl, fun a' => (get?_put _ _ _ _).trans (by cases v <;> rfl), rfl, ?_⟩
    intro b' hb'; cases b' <;> first | rfl | exact absurd rfl hb'
  | inB =>
    refine ⟨_, rfl, fun a' => (get?_put _ _ _ _).trans (by cases v <;> rfl), rfl, ?_⟩
    intro b' hb'; cases b' <;> first | rfl | exact absurd rfl hb'

/-- `rb OUT[a]` of an idle block where the byte is known (20_memory.md R55). -/
theorem step_rbOut (s : State) (a : Nat) (v : Byte) (rest : List Turn) (hb : s.busy = false) (ha : a < s.setup.cap.val + 16)
    (hv : Memory.get? s.out a = some v) (ht : s.turns = rbTurn .out a :: rest) :
    step s = .next { s with turns := rest, readByte := v } := by
  rw [step_cons ht, rbTurn, performTurn_host]
  unfold hostAction
  dsimp only
  unfold hostBufRead
  have hh : State.holds { s with turns := rest } .out (a + 1) = true := by rw [holds_succ, if_pos rfl]; exact ha
  have hb' : State.busy { s with turns := rest } = false := hb
  rw [if_neg (by rw [hb']; simp), if_neg (by rw [hh]; simp)]
  show (match Memory.get? s.out a with | some v => _ | none => _) = _
  rw [hv]

/-- `rd STATUS`, at any time (20_memory.md R52, R58). -/
theorem step_rdStatus (s : State) (rest : List Turn) (ht : s.turns = rdTurn .status :: rest) :
    step s = .next { s with turns := rest, readWord := s.status } := by
  rw [step_cons ht, rdTurn, performTurn_host]
  unfold hostAction
  dsimp only
  unfold hostRegRead
  rw [regAt_offset]
  dsimp only
  rw [if_neg (by simp)]
  rfl

/-- The four bytes of a packed word (10_state.md R23). -/
theorem wordByte_packWord (b0 b1 b2 b3 : Byte) : wordByte (packWord b0 b1 b2 b3) 0 = b0 ∧ wordByte (packWord b0 b1 b2 b3) 1 = b1 ∧
  wordByte (packWord b0 b1 b2 b3) 2 = b2 ∧ wordByte (packWord b0 b1 b2 b3) 3 = b3 := by
  refine ⟨?_, ?_, ?_, ?_⟩ <;>
  · apply BitVec.eq_of_getLsbD_eq
    intro i hi
    simp only [wordByte, packWord, BitVec.getLsbD_extractLsb', BitVec.getLsbD_append]
    have : i < 8 := hi
    interval_cases i <;> simp

/-- A packed word as a number (R23). -/
theorem toNat_packWord (b0 b1 b2 b3 : Byte) : (packWord b0 b1 b2 b3).toNat = b0.toNat + 256 * b1.toNat + 65536 * b2.toNat + 16777216 * b3.toNat := by
  simp only [packWord, BitVec.toNat_append]
  have := b0.isLt; have := b1.isLt; have := b2.isLt; have := b3.isLt
  rw [← Nat.shiftLeft_add_eq_or_of_lt (by assumption), ← Nat.shiftLeft_add_eq_or_of_lt (by assumption), ← Nat.shiftLeft_add_eq_or_of_lt (by assumption)]
  simp only [Nat.shiftLeft_eq]; omega

end Sys2Proof.Machine
end

