-- ==== Sys2Proof/Tests/Slice0.lean ====
section
/-! SUPPORT. Small tests. The expected results come from spec/: the vectors of 95_test_vectors.md, the encodings of 30_encoding.md, the rules of 20_memory.md. The second half holds one witness theorem for each statement that has hypotheses. -/

namespace Sys2Proof.Tests

open Sys2Proof Sys2Proof.Machine

/-! ## Helpers -/

/-- A buffer that holds the bytes from offset 0 on. -/
def mem (l : List Nat) : Memory := Memory.ofBytes 0 (l.map (BitVec.ofNat 8))

/-- The state after reset with the parameters of a test: 95_test_vectors.md uses `CAP = 64` and the ciphers XOR8 and ADD8. -/
def base (cap : Fin 4294967280) (c : Cipher) : State := { State.reset with setup := { cap := cap, cipher := c } }

/-- Operands of a pixel command. -/
def pixels (aw ah bw bh : Word) (a b : List Nat) : State :=
  { base 64 .xor8 with aw := aw, ah := ah, bw := bw, bh := bh, inA := mem a, inB := mem b }

/-- Operands of an envelope command. -/
def envelope (c : Cipher) (key0 key1 alen : Word) (a : List Nat) (ivs : List Block) : State :=
  { base 64 c with alen := alen, key0 := key0, key1 := key1, inA := mem a, ivAnswers := ivs }

/-- STATUS, OW, OH, OLEN and the bytes of OUT after a completion. -/
def resultOf : Host.Outcome State Fault Refusal → Option (Word × Word × Word × Word × List Byte)
  | .next t => some (t.status, t.ow, t.oh, t.olen, t.out.map Prod.snd)
  | _ => none

/-- The same result, written with numbers. -/
def result (status ow oh olen : Word) (bytes : List Nat) : Option (Word × Word × Word × Word × List Byte) :=
  some (status, ow, oh, olen, bytes.map (BitVec.ofNat 8))

def iv0 : Block := ⟨0x00, 0x01, 0x02, 0x03, 0x04, 0x05, 0x06, 0x07⟩

def ivA : Block := ⟨0xA0, 0xA1, 0xA2, 0xA3, 0xA4, 0xA5, 0xA6, 0xA7⟩

/-- The plaintext of E1 and E2: thirteen `41`. -/
def thirteen41 : List Nat := [0x41, 0x41, 0x41, 0x41, 0x41, 0x41, 0x41, 0x41, 0x41, 0x41, 0x41, 0x41, 0x41]

/-- The blob of E2 (95_test_vectors.md 2.5). -/
def blobE2 : List Nat :=
  [0x00, 0x01, 0x02, 0x03, 0x04, 0x05, 0x06, 0x07, 0x72, 0x72, 0x76, 0x76, 0x7A, 0x7A, 0x7E, 0x7E, 0x64, 0x65, 0x6A, 0x6B,
    0x70, 0xAF, 0xB4, 0xB5]

/-- The operands of M1 (95_test_vectors.md 2.2). -/
def stateM1 : State :=
  pixels 3 2 2 1
    [0x10, 0x21, 0x32, 0x43, 0x54, 0x65, 0x76, 0x87, 0x98, 0xA9, 0xBA, 0xCB, 0xDC, 0xED, 0xFE, 0x0F, 0x1E, 0x2D]
    [0xFF, 0x80, 0x7F, 0x10, 0x0F, 0x00]

/-- The operands of U2 (95_test_vectors.md 2.3). -/
def stateU2 : State := pixels 2 2 0 0 [0, 0, 0, 0, 0, 0x0A, 0x01, 0, 0, 0, 0, 0] []

/-- The operands of E2. -/
def stateE2 : State := envelope .add8 0x34333231 0x38373635 13 thirteen41 [iv0]

/-- The operands of D2. -/
def stateD2 : State := envelope .add8 0x34333231 0x38373635 24 blobE2 []

/-- The operands of D14: key 0, so that the ciphertext is the padded plaintext combined with the zero IV. -/
def stateD14 : State := envelope .xor8 0 0 16 [0, 0, 0, 0, 0, 0, 0, 0, 1, 2, 3, 4, 5, 2, 3, 3] []

/-- A plaintext longer than CAP (E6). -/
def stateE6 : State := envelope .xor8 0 0 65 [] [iv0]

/-- A busy state: a command just issued. -/
def busyState (i : Instr) (turns : List Turn) : State :=
  { stateM1 with status := 0x00000001, curOp := some i, turns := turns }

/-! ## The form checks refuse (30_encoding.md R81, R84; 20_memory.md R54) -/

theorem test_legalWord_refuses_zero : legalWord 0x00000000 = false := by decide

theorem test_legalWord_refuses_opcode_five : legalWord 0x00000005 = false := by decide

theorem test_legalWord_refuses_bit_eight : legalWord 0x00000101 = false := by decide

theorem test_legalRegAccess_refuses_sixteen_bits : legalRegAccess 0x08 16 = false := by decide

theorem test_legalRegAccess_refuses_offset_two : legalRegAccess 0x02 32 = false := by decide

theorem test_legalRegAccess_refuses_offset_past_the_space : legalRegAccess 0x30 32 = false := by decide

theorem test_legal_forms : legalWord 0x00000004 = true ∧ legalRegAccess 0x2C 32 = true := by decide

/-! ## Decoding (30_encoding.md R80, R81): `ZERO` in bits 31:8, `OPCODE` in bits 7:0 -/

theorem test_decode_merge : decode 0b00000000000000000000000000000001#32 = .ok .merge := by decide

theorem test_decode_unmerge : decode 0b00000000000000000000000000000010#32 = .ok .unmerge := by decide

theorem test_decode_envpad : decode 0b00000000000000000000000000000011#32 = .ok .envpad := by decide

theorem test_decode_envunpad : decode 0b00000000000000000000000000000100#32 = .ok .envunpad := by decide

theorem test_decode_refuses_by_name :
    decode 0b10000000000000000000000000000001#32 = .error .zeroFieldSet ∧
    decode 0b00000000000000000000000011111111#32 = .error .reservedOpcode := by decide

theorem test_table_word : decodeTableWord 32 3 = some .envpad ∧ decodeTableWord 32 5 = none ∧
    decodeTableWord 64 0x100000003 = none := by decide

/-! ## The commands -/

/-- 95_test_vectors.md M1. -/
theorem test_merge_M1 :
    resultOf (exec .merge stateM1) = result 0x02 3 2 18
      [0x1F, 0x28, 0x37, 0x41, 0x50, 0x60, 0x70, 0x80, 0x90, 0xA0, 0xB0, 0xC0, 0xD0, 0xE0, 0xF0, 0x00, 0x10, 0x20] := by
  decide

/-- M10: DimensionError comes before CapacityError. -/
theorem test_merge_M10 :
    resultOf (exec .merge { base 65536 .xor8 with aw := 70000, ah := 70000, bw := 70001, bh := 1 }) =
      result 0x16 0 0 0 [] := by decide

/-- U2: the extent is not the bounding box. -/
theorem test_unmerge_U2 : resultOf (exec .unmerge stateU2) = result 0x02 2 1 6 [0, 0, 0, 0, 0, 0xA0] := by decide

/-- U6: the rows are repacked to the inferred width. -/
theorem test_unmerge_U6 :
    resultOf (exec .unmerge (pixels 3 3 0 0
      [0, 0, 0, 0, 0, 0, 0, 0, 0, 0, 0, 0, 0, 0, 0, 0, 0, 0, 0, 0, 0, 0x3F, 0, 0, 0, 0, 0] [])) =
      result 0x02 2 3 18 [0, 0, 0, 0, 0, 0, 0, 0, 0, 0, 0, 0, 0, 0, 0, 0xF0, 0, 0] := by decide

/-- E2. -/
theorem test_envpad_E2 : resultOf (exec .envpad stateE2) = result 0x02 0 0 24 blobE2 := by decide

/-- E3: the empty plaintext. -/
theorem test_envpad_E3 :
    resultOf (exec .envpad (envelope .xor8 0x34333231 0x38373635 0 [] [ivA])) = result 0x02 0 0 16
      [0xA0, 0xA1, 0xA2, 0xA3, 0xA4, 0xA5, 0xA6, 0xA7, 0x99, 0x9B, 0x99, 0x9F, 0x99, 0x9B, 0x99, 0x97] := by decide

/-- D2. -/
theorem test_envunpad_D2 : resultOf (exec .envunpad stateD2) = result 0x02 0 0 13 thirteen41 := by decide

/-- D14: the count is 3, but one of the last three bytes is not. -/
theorem test_envunpad_D14 : resultOf (exec .envunpad stateD14) = result 0x36 0 0 0 [] := by decide

/-! ## One step -/

/-- The fused command on the state after reset (30_encoding.md R86): the empty carrier (M4), each command's step is next. -/
theorem test_step_from_reset :
    resultOf (step (State.reset.withFetchWord 32 1)) = result 0x02 0 0 0 [] ∧
    resultOf (step (State.reset.withFetchWord 32 2)) = result 0x02 0 0 0 [] ∧
    resultOf (step (State.reset.withFetchWord 32 4)) = result 0x26 0 0 0 [] := ⟨by decide, by decide, by decide⟩

/-- P4: the illegal word 0x00000101. -/
theorem test_step_illegal_word :
    resultOf (step { base 64 .xor8 with turns := [.host (.regWrite 0x00 32 0x00000101)] }) = result 0x56 0 0 0 [] := by
  decide

/-- 20_memory.md R53: `wr ALEN, 13` is the write at offset 0x18. -/
theorem test_step_writes_alen :
    ∃ t, step { base 64 .xor8 with turns := [.host (.regWrite 0x18 32 13)] } = .next t ∧ t.alen = 13 ∧ t.bh = 0 :=
  ⟨_, rfl, by decide, by decide⟩

/-- 10_state.md R23: key byte 0 in the lowest bits of KEY0 (95_test_vectors.md S4, key "12345678"). -/
theorem test_key_bytes : stateE2.key = ⟨0x31, 0x32, 0x33, 0x34, 0x35, 0x36, 0x37, 0x38⟩ := by decide

/-! ## Witnesses: for each statement with hypotheses, a state that meets them all -/

/-- The invariant holds after M1's merge, the result standing in OUT. -/
def doneState (turns : List Turn) : State :=
  { pixels 1 1 1 1 [0xAB, 0x12, 0xF0] [0xCD, 0xFF, 0x0F] with
    status := 0x00000002, ow := 1, oh := 1, olen := 3, out := mem [0xAC, 0x1F, 0xF0], turns := turns }

/-- A state after DimensionError. -/
def errorState : State := { pixels 1 1 2 1 [] [] with status := 0x00000016 }

theorem doneState_inv (turns : List Turn) : Inv (doneState turns) :=
  inv_turns (s := doneState []) turns
    ⟨by decide, by decide, by decide, by decide, by decide, by decide, by decide, by decide, by decide, by decide⟩

theorem busyState_inv (i : Instr) (turns : List Turn) : Inv (busyState i turns) := by
  have h : Inv (busyState i []) := by
    cases i <;>
    exact ⟨by decide, by decide, by decide, by decide, by decide, by decide, by decide, by decide, by decide, by decide⟩
  exact inv_turns turns h

theorem doneState_busy (turns : List Turn) : (doneState turns).busy = false :=
  show (doneState []).busy = false by decide

theorem busyState_busy (i : Instr) (turns : List Turn) : (busyState i turns).busy = true :=
  show (busyState .merge []).busy = true by decide

theorem errorState_inv : Inv errorState :=
  ⟨by decide, by decide, by decide, by decide, by decide, by decide, by decide, by decide, by decide, by decide⟩

/-- A result that `resultOf` reads is that of a next state. -/
theorem next_of_result {o : Host.Outcome State Fault Refusal} {st ow oh olen : Word} {bytes : List Nat}
    (h : resultOf o = result st ow oh olen bytes) :
    ∃ t, o = .next t ∧ t.status = st ∧ t.ow = ow ∧ t.oh = oh ∧ t.olen = olen := by
  cases o with
  | next t =>
    simp only [resultOf, result, Option.some.injEq, Prod.mk.injEq] at h
    exact ⟨t, rfl, h.1, h.2.1, h.2.2.1, h.2.2.2.1⟩
  | fault r => cases h
  | refused r => cases h

theorem witness_StepRunsTheDecodedCommand :
    (doneState [.command 0x00000001, .engine]).turns = .command 0x00000001 :: [.engine] ∧
    (doneState [.command 0x00000001, .engine]).busy = false ∧
    decode 0x00000001 = .ok .merge ∧ decode 0x00000002 = .ok .unmerge ∧ decode 0x00000003 = .ok .envpad ∧
    decode 0x00000004 = .ok .envunpad := by decide

theorem witness_StepCompletesTheLatchedCommand :
    (busyState .unmerge []).busy = true ∧ (busyState .unmerge []).curOp = some .unmerge ∧ (busyState .unmerge []).turns = [] ∧
    (busyState .envpad [.engine, .reset]).busy = true ∧ (busyState .envpad [.engine, .reset]).curOp = some .envpad ∧
    (busyState .envpad [.engine, .reset]).turns = .engine :: [.reset] := by decide

theorem witness_IssueLatchesTheCommand :
    (doneState [.host (.regWrite 0x00 32 0x00000004)]).turns = .host (.regWrite 0x00 32 0x00000004) :: [] ∧
    (doneState [.host (.regWrite 0x00 32 0x00000004)]).busy = false ∧ decode 0x00000004 = .ok .envunpad := by decide

theorem witness_IllegalWordIsReported :
    (doneState [.host (.regWrite 0x00 32 0x00000005)]).turns = .host (.regWrite 0x00 32 0x00000005) :: [] ∧
    (doneState [.command 0x00000000]).turns = .command 0x00000000 :: [] ∧
    (doneState [.host (.regWrite 0x00 32 0x00000005)]).busy = false ∧ (doneState [.command 0x00000000]).busy = false ∧
    (doneState [.host (.regWrite 0x00 32 0x00000005)]).curOp = none ∧ (doneState [.command 0x00000000]).curOp = none ∧
    (0x00000005#32 ≠ 0x00000001#32 ∧ 0x00000005#32 ≠ 0x00000002#32 ∧ 0x00000005#32 ≠ 0x00000003#32 ∧
      0x00000005#32 ≠ 0x00000004#32) ∧
    (0x00000000#32 ≠ 0x00000001#32 ∧ 0x00000000#32 ≠ 0x00000002#32 ∧ 0x00000000#32 ≠ 0x00000003#32 ∧
      0x00000000#32 ≠ 0x00000004#32) :=
  ⟨by decide, by decide, by decide, by decide, by decide, by decide, by decide, by decide⟩

theorem witness_EngineTurnCompletesTheCommand :
    (Inv (busyState .merge []) ∧ (busyState .merge []).busy = true ∧ (busyState .merge []).turns = []) ∧
    (Inv (busyState .envunpad [.engine, .reset]) ∧ (busyState .envunpad [.engine, .reset]).busy = true ∧
      ∃ rest, (busyState .envunpad [.engine, .reset]).turns = .engine :: rest) :=
  ⟨⟨busyState_inv _ _, by decide, by decide⟩, busyState_inv _ _, by decide, [.reset], by decide⟩

theorem witness_ResetLeavesTheResetState :
    (busyState .merge [.reset, .engine]).turns = .reset :: [.engine] ∧ (busyState .merge [.reset, .engine]).busy = true ∧
    (doneState [.reset]).turns = .reset :: [] := by decide

theorem witness_DoneIsClearedOnlyByIssueOrReset :
    (Inv (doneState [.reset]) ∧ statusDone (doneState [.reset]).status = true ∧
      ∃ t, step (doneState [.reset]) = .next t ∧ statusDone t.status = false) ∧
    (Inv (doneState [.host (.regWrite 0x00 32 1)]) ∧ statusDone (doneState [.host (.regWrite 0x00 32 1)]).status = true ∧
      ∃ t, step (doneState [.host (.regWrite 0x00 32 1)]) = .next t ∧ statusDone t.status = false) :=
  ⟨⟨doneState_inv _, by decide, _, rfl, by decide⟩, doneState_inv _, by decide, _, rfl, by decide⟩

theorem witness_RegisterReadReturnsTheRegister (n : Nat) (hn : n < 12) :
    (doneState [.host (.regRead (4 * n) 32)]).turns = .host (.regRead (4 * n) 32) :: [] ∧
    (doneState [.host (.regRead (4 * n) 32)]).busy = false ∧ (busyState .merge [.host (.regRead (4 * n) 32)]).busy = true ∧
    (busyState .merge [.host (.regRead (4 * n) 32)]).turns = .host (.regRead (4 * n) 32) :: [] ∧
    (∃ v, [0, 0x00000002#32, 1, 1, 1, 1, 0, 0, 0, 1, 1, 3][n]? = some v) ∧
    (∃ v, [0, 0x00000001#32, 3, 2, 2, 1, 0, 0, 0, 0, 0, 0][n]? = some v) :=
  ⟨rfl, doneState_busy _, busyState_busy _ _, rfl, ⟨_, List.getElem?_eq_getElem hn⟩, ⟨_, List.getElem?_eq_getElem hn⟩⟩

/-- The list of the statement, at this state, is the one of the witness above. -/
theorem witness_RegisterReadReturnsTheRegister_values (turns : List Turn) :
    let s := doneState turns
    [0, s.status, s.aw, s.ah, s.bw, s.bh, s.alen, s.key0, s.key1, s.ow, s.oh, s.olen] =
      [0, 0x00000002#32, 1, 1, 1, 1, 0, 0, 0, 1, 1, 3] := rfl

theorem witness_RegisterWriteSetsTheRegister (n : Nat) (_ : n < 12) :
    (doneState [.host (.regWrite (4 * n) 32 7)]).turns = .host (.regWrite (4 * n) 32 7) :: [] ∧
    (doneState [.host (.regWrite (4 * n) 32 7)]).busy = false ∧
    (busyState .merge [.host (.regWrite (4 * n) 32 7)]).turns = .host (.regWrite (4 * n) 32 7) :: [] ∧
    (busyState .merge [.host (.regWrite (4 * n) 32 7)]).busy = true := ⟨rfl, doneState_busy _, rfl, busyState_busy _ _⟩

theorem witness_OddRegisterAccessIsRefused :
    (doneState [.host (.regRead 0x30 32)]).turns = .host (.regRead 0x30 32) :: [] ∧ 0x30 ≤ 0x30 ∧
    (doneState [.host (.regWrite 0x02 32 7)]).turns = .host (.regWrite 0x02 32 7) :: [] ∧ 0x02 % 4 ≠ 0 ∧
    (doneState [.host (.regRead 0x08 16)]).turns = .host (.regRead 0x08 16) :: [] ∧ 16 ≠ 32 := by decide

theorem witness_BufferReadReturnsTheByte :
    ((doneState [.host (.bufRead .out 2)]).turns = .host (.bufRead .out 2) :: [] ∧
      (doneState [.host (.bufRead .out 2)]).busy = false ∧ Memory.get? (doneState []).out 2 = some 0xF0) ∧
    ((doneState [.host (.bufRead .out 79)]).turns = .host (.bufRead .out 79) :: [] ∧
      Memory.get? (doneState []).out 79 = none ∧ 79 < (doneState []).setup.cap.val + 16) ∧
    ((doneState [.host (.bufRead .inA 63)]).turns = .host (.bufRead .inA 63) :: [] ∧
      Memory.get? (doneState []).inA 63 = none ∧ 63 < (doneState []).setup.cap.val) ∧
    ((doneState [.host (.bufRead .inB 64)]).turns = .host (.bufRead .inB 64) :: [] ∧ (doneState []).setup.cap.val ≤ 64) ∧
    ((busyState .merge [.host (.bufRead .inA 0)]).turns = .host (.bufRead .inA 0) :: [] ∧
      (busyState .merge []).busy = true) := by decide

theorem witness_BufferWriteChangesOneByte :
    Buf.inA ≠ Buf.out ∧ Buf.inB ≠ Buf.out ∧
    (doneState [.host (.bufWrite .inA 63 (.lit 7))]).turns = .host (.bufWrite .inA 63 (.lit 7)) :: [] ∧
    (doneState []).busy = false ∧ 63 < (doneState []).setup.cap.val ∧
    (doneState [.host (.bufWrite .inB 0 .lastRead)]).turns = .host (.bufWrite .inB 0 .lastRead) :: [] ∧
    (doneState [.host (.bufWrite .inB 64 (.lit 7))]).turns = .host (.bufWrite .inB 64 (.lit 7)) :: [] ∧
    (doneState []).setup.cap.val ≤ 64 ∧
    (busyState .merge [.host (.bufWrite .inB 0 (.lit 7))]).turns = .host (.bufWrite .inB 0 (.lit 7)) :: [] ∧
    (busyState .merge []).busy = true := by decide

theorem witness_OutIsReadOnlyForTheHost :
    (doneState [.host (.bufWrite .out 79 .lastRead)]).turns = .host (.bufWrite .out 79 .lastRead) :: [] ∧
    (doneState []).busy = false ∧ 79 < (doneState []).setup.cap.val + 16 ∧
    (doneState [.host (.bufWrite .out 80 (.lit 7))]).turns = .host (.bufWrite .out 80 (.lit 7)) :: [] ∧
    (doneState []).setup.cap.val + 16 ≤ 80 := by decide

theorem witness_BusyBlockRefusesAllButTheStatusRead :
    Inv (busyState .merge [.host (.regRead 0x04 32)]) ∧ (busyState .merge [.host (.regRead 0x04 32)]).busy = true ∧
    (busyState .merge [.host (.regRead 0x04 32)]).turns = .host (.regRead 0x04 32) :: [] ∧
    Inv (busyState .merge [.host (.regWrite 0x00 32 1)]) ∧
    (busyState .merge [.host (.regWrite 0x00 32 1)]).turns = .host (.regWrite 0x00 32 1) :: [] ∧
    HostAction.regWrite 0x00 32 1 ≠ .regRead 0x04 32 ∧
    Inv (busyState .merge [.command 1]) ∧ (busyState .merge [.command 1]).turns = .command 1 :: [] :=
  ⟨busyState_inv _ _, by decide, by decide, busyState_inv _ _, by decide, by decide, busyState_inv _ _, by decide⟩

theorem witness_BufferWriteReadsBackAndKeepsTheForm : Memory.wf (mem [1, 2, 3]) = true := by decide

theorem witness_StepKeepsTheInvariant :
    (Inv (busyState .merge []) ∧ ∃ t, step (busyState .merge []) = .next t) ∧
    (Inv (doneState [.host (.bufWrite .inA 63 (.lit 7))]) ∧
      ∃ t, step (doneState [.host (.bufWrite .inA 63 (.lit 7))]) = .next t) := by
  refine ⟨⟨busyState_inv _ _, ?_⟩, doneState_inv _, _, rfl⟩
  exact (exec_next .merge (busyState .merge [])).imp fun _ h => h

theorem witness_StatusFieldsAgree :
    (Inv (busyState .merge []) ∧ statusBusy (busyState .merge []).status = true) ∧
    (Inv errorState ∧ statusErr errorState.status = true) ∧
    (Inv (doneState []) ∧ statusErr (doneState []).status = false ∧ statusDone (doneState []).status = true) :=
  ⟨⟨busyState_inv _ _, by decide⟩, ⟨errorState_inv, by decide⟩, doneState_inv _, by decide, by decide⟩

theorem witness_OperandsChangeOnlyByHostOrReset :
    ((∃ t, step (doneState [.host (.regWrite 0x20 32 7)]) = .next t ∧
        t.readReg .key1 ≠ (doneState [.host (.regWrite 0x20 32 7)]).readReg .key1) ∧
      ∀ rest, (doneState [.host (.regWrite 0x20 32 7)]).turns ≠ .reset :: rest) ∧
    ((∃ t, step (doneState [.host (.bufWrite .inB 0 (.lit 7))]) = .next t ∧
        t.buffer .inB ≠ (doneState [.host (.bufWrite .inB 0 (.lit 7))]).buffer .inB) ∧
      ∀ rest, (doneState [.host (.bufWrite .inB 0 (.lit 7))]).turns ≠ .reset :: rest) := by
  refine ⟨⟨⟨_, rfl, by decide⟩, ?_⟩, ⟨_, rfl, by decide⟩, ?_⟩ <;> intro rest h <;> cases h

theorem witness_ParametersNeverChange : ∃ t, step (doneState [.reset]) = .next t := ⟨_, rfl⟩

theorem witness_CommandsChangeOnlyTheResults :
    (∃ t, exec .merge stateM1 = .next t) ∧ (∃ t, exec .unmerge stateU2 = .next t) ∧
    (∃ t, exec .envpad stateE2 = .next t) ∧ (∃ t, exec .envunpad stateD2 = .next t) :=
  ⟨exec_next _ _, exec_next _ _, exec_next _ _, exec_next _ _⟩

theorem witness_ErrorLeavesOnlyItsCode : ∃ t, exec .envunpad stateD14 = .next t ∧ statusErr t.status = true := by
  obtain ⟨t, h, hs, _⟩ := next_of_result test_envunpad_D14
  exact ⟨t, h, by rw [hs]; decide⟩

/-- One state for each code, the lengths at their boundaries (95_test_vectors.md M5, D9, D14, U10, E6). -/
theorem witness_ErrorCodesAndTheirOrder :
    resultOf (exec .merge (pixels 4 4 5 4 [] [])) = result 0x16 0 0 0 [] ∧
    resultOf (exec .envunpad (envelope .xor8 0 0 15 [] [])) = result 0x26 0 0 0 [] ∧
    resultOf (exec .envunpad stateD14) = result 0x36 0 0 0 [] ∧
    resultOf (exec .unmerge (pixels 5 5 0 0 [] [])) = result 0x46 0 0 0 [] ∧
    resultOf (exec .envpad stateE6) = result 0x46 0 0 0 [] ∧
    resultOf (exec .envunpad (envelope .xor8 0 0 72 [] [])) = result 0x46 0 0 0 [] :=
  ⟨by decide, by decide, by decide, by decide, by decide, by decide⟩

/-- Two states with the same inputs and different other registers, for each command. -/
theorem witness_CommandsAreStateless :
    (SameInputs .merge stateM1 { stateM1 with alen := 9, key0 := 7, olen := 5 } ∧
      SameInputs .unmerge stateU2 { stateU2 with bw := 9, inB := mem [1] } ∧
      SameInputs .envpad stateE2 { stateE2 with aw := 9, out := mem [1] } ∧
      SameInputs .envunpad stateD2 { stateD2 with aw := 9, ivAnswers := [ivA] }) ∧
    (∃ t t', exec .merge stateM1 = .next t ∧ exec .merge { stateM1 with alen := 9, key0 := 7, olen := 5 } = .next t') := by
  refine ⟨⟨⟨rfl, rfl, rfl, rfl, rfl, fun _ _ => rfl, fun _ _ => rfl⟩, ⟨rfl, rfl, rfl, fun _ _ => rfl⟩,
    ⟨rfl, rfl, rfl, rfl, rfl, fun _ _ => rfl⟩, ⟨rfl, rfl, rfl, rfl, fun _ _ => rfl⟩⟩, ?_⟩
  obtain ⟨t, h⟩ := exec_next .merge stateM1
  obtain ⟨t', h'⟩ := exec_next .merge { stateM1 with alen := 9, key0 := 7, olen := 5 }
  exact ⟨t, t', h, h'⟩

theorem witness_OnlyEnvpadDrawsAnIv :
    ((∃ t, exec .envpad stateE2 = .next t) ∧ stateE2.ivAnswers = iv0 :: [] ∧
      stateE2.alen.toNat ≤ stateE2.setup.cap.val) ∧
    ((∃ t, exec .envpad stateE6 = .next t) ∧ stateE6.ivAnswers = iv0 :: [] ∧
      ¬ stateE6.alen.toNat ≤ stateE6.setup.cap.val) ∧
    ((∃ t, exec .envpad { stateE2 with ivAnswers := [], alen := 64 } = .next t) ∧
      64 ≤ stateE2.setup.cap.val) ∧
    ((∃ t, exec .envunpad stateD2 = .next t) ∧ stateD2.ivAnswers = []) :=
  ⟨⟨exec_next _ _, by decide, by decide⟩, ⟨exec_next _ _, by decide, by decide⟩, ⟨exec_next _ _, by decide⟩,
    exec_next _ _, by decide⟩

/-- The three cases of MERGE, at the boundary (95_test_vectors.md M5, M9 and M1). -/
theorem witness_MergeCommand :
    ((pixels 4 4 5 4 [] []).aw.toNat < (pixels 4 4 5 4 [] []).bw.toNat) ∧
    ((pixels 5 5 5 5 [] []).bw.toNat ≤ (pixels 5 5 5 5 [] []).aw.toNat ∧
      (pixels 5 5 5 5 [] []).bh.toNat ≤ (pixels 5 5 5 5 [] []).ah.toNat ∧
      (pixels 5 5 5 5 [] []).setup.cap.val < 3 * (pixels 5 5 5 5 [] []).aw.toNat * (pixels 5 5 5 5 [] []).ah.toNat) ∧
    (stateM1.bw.toNat ≤ stateM1.aw.toNat ∧ stateM1.bh.toNat ≤ stateM1.ah.toNat ∧
      3 * stateM1.aw.toNat * stateM1.ah.toNat ≤ stateM1.setup.cap.val) ∧
    (2 < stateM1.aw.toNat ∧ 1 < stateM1.ah.toNat ∧ 2 < 3 ∧ 3 * stateM1.aw.toNat * stateM1.ah.toNat ≤ 18) := by decide

theorem witness_UnmergeCommand :
    ((pixels 5 5 0 0 [] []).setup.cap.val < 3 * (pixels 5 5 0 0 [] []).aw.toNat * (pixels 5 5 0 0 [] []).ah.toNat) ∧
    (3 * stateU2.aw.toNat * stateU2.ah.toNat ≤ stateU2.setup.cap.val) := by decide

/-- U3: no pixel is non-black, so that the extent is the full one; and U2: one pixel is. -/
theorem witness_UnmergeCommand_extents :
    (let s := pixels 2 2 0 0 [0xF0, 0x10, 0x20, 0x30, 0x40, 0x50, 0x60, 0x70, 0x80, 0x90, 0xA0, 0xB0] []
     3 * s.aw.toNat * s.ah.toNat ≤ s.setup.cap.val ∧ InferredExtent s 2 2 ∧
      resultOf (exec .unmerge s) = result 0x02 2 2 12 [0, 0, 0, 0, 0, 0, 0, 0, 0, 0, 0, 0]) ∧
    NonblackAt stateU2 1 0 := by
  refine ⟨⟨by decide, .inl ⟨?_, rfl, rfl⟩, by decide⟩, 2, by decide, by decide⟩
  intro x y hx hy
  have hx' : x < 2 := hx
  have hy' : y < 2 := hy
  have hall : ∀ x < 2, ∀ y < 2, ∀ c < 3,
      (pixels 2 2 0 0 [0xF0, 0x10, 0x20, 0x30, 0x40, 0x50, 0x60, 0x70, 0x80, 0x90, 0xA0, 0xB0] []).byteAt .inA
        (3 * (y * 2 + x) + c) &&& 0x0F#8 = 0 := by decide
  rintro ⟨c, hc, h⟩
  exact h (hall x hx' y hy' c hc)

/-- M1: inside the payload at (1, 0), outside it at (2, 1); and two carriers that differ in lower nibbles only. -/
theorem witness_MergeKeepsUpperNibbles :
    (∃ t, exec .merge stateM1 = .next t ∧ statusErr t.status = false) ∧
    (1 < stateM1.bw.toNat ∧ 0 < stateM1.bh.toNat ∧ 2 < stateM1.aw.toNat ∧ 1 < stateM1.ah.toNat ∧
      ¬ (2 < stateM1.bw.toNat ∧ 1 < stateM1.bh.toNat)) ∧
    (let s := pixels 1 1 1 1 [0xAB, 0x12, 0xF0] [0xCD, 0xFF, 0x0F]
     let s' := pixels 1 1 1 1 [0xA0, 0x1F, 0xF1] [0xCE, 0xF0, 0x0A]
     s.setup = s'.setup ∧ (∀ a, s.byteAt .inA a &&& 0xF0#8 = s'.byteAt .inA a &&& 0xF0#8) ∧
      (∀ a, s.byteAt .inB a &&& 0xF0#8 = s'.byteAt .inB a &&& 0xF0#8) ∧ (∃ t, exec .merge s = .next t) ∧
      ∃ t', exec .merge s' = .next t') := by
  refine ⟨?_, by decide, rfl, ?_, ?_, exec_next _ _, exec_next _ _⟩
  · obtain ⟨t, h, hs, _⟩ := next_of_result test_merge_M1
    exact ⟨t, h, by rw [hs]; decide⟩
  · intro a
    match a with
    | 0 => decide
    | 1 => decide
    | 2 => decide
    | _ + 3 => rfl
  · intro a
    match a with
    | 0 => decide
    | 1 => decide
    | 2 => decide
    | _ + 3 => rfl

/-- A merged state is in reach of `unmerge` on it: M1, and M2's payload without a bright pixel. -/
theorem merge_then_unmerge {s : State} {st ow oh olen : Word} {bytes : List Nat}
    (h : resultOf (exec .merge s) = result st ow oh olen bytes) (hst : statusErr st = false)
    (hc : imageBytes s.aw.toNat s.ah.toNat ≤ s.setup.cap.val) :
    ∃ t u, exec .merge s = .next t ∧ statusErr t.status = false ∧
      exec .unmerge { t with inA := t.out } = .next u ∧ statusErr u.status = false := by
  obtain ⟨t, ht, hs, _⟩ := next_of_result h
  obtain ⟨e1, e2, e3, _⟩ := exec_kept ht
  have hc' : imageBytes t.aw.toNat t.ah.toNat ≤ t.setup.cap.val := by rw [e1, e2, e3]; exact hc
  exact ⟨t, _, ht, by rw [hs]; exact hst, exec_unmerge_result (s := { t with inA := t.out }) hc', err_complete ..⟩

theorem witness_ExtentOfAMergedImage :
    ∃ t u, exec .merge stateM1 = .next t ∧ statusErr t.status = false ∧
      exec .unmerge { t with inA := t.out } = .next u ∧ statusErr u.status = false :=
  merge_then_unmerge test_merge_M1 (by decide) (by decide)

/-- Both kinds of payload of the statement: a bright pixel in M1's, none in a dark one. -/
theorem witness_ExtentOfAMergedImage_clauses :
    (∃ c, c < 3 ∧ 16 ≤ (stateM1.byteAt .inB (3 * (0 * stateM1.bw.toNat + 1) + c)).toNat) ∧
    (let s := pixels 1 1 1 1 [0xAB, 0x12, 0xF0] [0x0D, 0x0F, 0x00]
     ∀ x y, x < s.bw.toNat → y < s.bh.toNat → ¬ ∃ c, c < 3 ∧ 16 ≤ (s.byteAt .inB (3 * (y * s.bw.toNat + x) + c)).toNat) := by
  refine ⟨⟨0, by decide, by decide⟩, ?_⟩
  intro s x y hx hy
  have hx' : x < 1 := hx
  have hy' : y < 1 := hy
  obtain rfl : x = 0 := by omega
  obtain rfl : y = 0 := by omega
  rintro ⟨c, hc, h⟩
  match c, hc, h with
  | 0, _, h => exact absurd h (by decide)
  | 1, _, h => exact absurd h (by decide)
  | 2, _, h => exact absurd h (by decide)

theorem witness_MergeThenUnmergeRecoversThePayload :
    ∃ t, exec .merge stateM1 = .next t ∧ statusErr t.status = false := by
  obtain ⟨t, h, hs, _⟩ := next_of_result test_merge_M1
  exact ⟨t, h, by rw [hs]; decide⟩

theorem witness_PixelOffsetsFillTheImage : 2 < 3 ∧ 1 < 2 ∧ off 3 2 1 2 = 17 ∧ 17 < 3 * 3 * 2 := by decide

theorem witness_PaddingBytes : 12 < thirteen41.length ∧ thirteen41.length ≤ 15 ∧ 15 < thirteen41.length + (8 - thirteen41.length % 8) := by
  decide

/-- D13's neighbour D15: seven bytes and one filler byte. -/
theorem endsInPadding_D15 : EndsInPadding [1, 2, 3, 4, 5, 6, 7, 1] 1 := by
  refine ⟨by decide, by decide, ?_⟩
  intro a h1 h2
  simp only [List.length_cons, List.length_nil] at h1 h2
  obtain rfl : a = 7 := by omega
  decide

theorem witness_UnpadRemovesThePadding :
    (8 ≤ [1#8, 2, 3, 4, 5, 6, 7, 1].length ∧ EndsInPadding [1, 2, 3, 4, 5, 6, 7, 1] 1) ∧
    padOk [1, 2, 3, 4, 5, 6, 7, 1] = true := ⟨⟨by decide, endsInPadding_D15⟩, by decide⟩

/-- The two cases of ENVPAD at the boundary: 65 bytes and 64 bytes with CAP = 64; the last block of E2's plaintext. -/
theorem witness_EnvpadCommand :
    stateE6.setup.cap.val < stateE6.alen.toNat ∧
    (let s := { stateE2 with alen := 64 }
     s.alen.toNat ≤ s.setup.cap.val) ∧
    stateE2.alen.toNat ≤ stateE2.setup.cap.val ∧ 1 < stateE2.alen.toNat / 8 + 1 := by decide

/-- The cases of ENVUNPAD: lengths 15 and 17, length 72 with CAP = 64, and length 16. -/
theorem witness_EnvunpadCommand :
    (let s := envelope .xor8 0 0 15 [] []
     s.alen.toNat < 16) ∧
    (let s := envelope .xor8 0 0 17 [] []
     (s.alen.toNat - 8) % 8 ≠ 0) ∧
    (let s := envelope .xor8 0 0 72 [] []
     16 ≤ s.alen.toNat ∧ (s.alen.toNat - 8) % 8 = 0 ∧ s.setup.cap.val < s.alen.toNat) ∧
    (16 ≤ stateD14.alen.toNat ∧ (stateD14.alen.toNat - 8) % 8 = 0 ∧ stateD14.alen.toNat ≤ stateD14.setup.cap.val ∧
      0 < (stateD14.alen.toNat - 8) / 8) := by decide

/-- D15's decrypted bytes end in padding, D14's in none. -/
theorem witness_EnvunpadCommand_padding :
    ([1#8, 2, 3, 4, 5, 6, 7, 1].length = 8 ∧ EndsInPadding [1, 2, 3, 4, 5, 6, 7, 1] 1) ∧
    ([1#8, 2, 3, 4, 5, 2, 3, 3].length = 8 ∧ ∀ n, ¬ EndsInPadding [1, 2, 3, 4, 5, 2, 3, 3] n) := by
  refine ⟨⟨rfl, endsInPadding_D15⟩, rfl, ?_⟩
  intro n h
  have h3 := padFound_of_endsInPadding (by decide) h
  have : padFound [1, 2, 3, 4, 5, 2, 3, 3] = 3 := by decide
  obtain rfl : n = 3 := by omega
  exact absurd (h.2.2 5 (by decide) (by decide)) (by decide)

theorem bcInv_xor8 : BcInv .xor8 := fun k b => xor_xor_self b k

theorem bcInv_add8 : BcInv .add8 := by
  intro k b
  simp [bcDec, bcEnc, Block.zipWith]

theorem witness_EnvelopeRoundTrip : BcInv .xor8 ∧ BcInv .add8 := ⟨bcInv_xor8, bcInv_add8⟩

theorem witness_EnvpadThenEnvunpadRecoversThePlaintext :
    BcInv stateE2.setup.cipher ∧
    ∃ t, exec .envpad stateE2 = .next t ∧ statusErr t.status = false ∧ t.olen.toNat ≤ stateE2.setup.cap.val := by
  obtain ⟨t, h, hs, _, _, ho⟩ := next_of_result test_envpad_E2
  exact ⟨bcInv_add8, t, h, by rw [hs]; decide, by rw [ho]; decide⟩

theorem witness_DecryptedBlockDependsOnTwoBlocks : (0 ≠ 2 ∧ 0 ≠ 2 + 1) ∧ (4 ≠ 2 ∧ 4 ≠ 2 + 1) ∧ 1 ≠ 0 := by decide

theorem witness_CbcDecryptionUndoesEncryption : ∀ b, Block.xor (Block.xor b ivA) ivA = b := fun b => xor_xor_self b ivA

theorem witness_LdbytesLoadsTheBuffer :
    let turns := (ScriptLine.ldbytes .inA [0x41, 0x42]).turns ++ [.reset]
    (doneState turns).busy = false ∧ Buf.inA ≠ .out ∧ [0x41#8, 0x42].length ≤ (doneState turns).setup.cap.val ∧
      (doneState turns).turns = (ScriptLine.ldbytes .inA [0x41, 0x42]).turns ++ [.reset] := by decide

theorem witness_LdimgLoadsTheImage :
    let pixels : List (Byte × Byte × Byte) := [(0xAB, 0xCD, 0xEF), (0x12, 0x34, 0x56)]
    let turns := (ScriptLine.ldimg .inB 2 1 pixels).turns ++ []
    (doneState turns).busy = false ∧ Buf.inB ≠ .out ∧ pixels.length = 2 * 1 ∧ 3 * 2 * 1 ≤ (doneState turns).setup.cap.val ∧
      (doneState turns).turns = (ScriptLine.ldimg .inB 2 1 pixels).turns ++ [] := by decide

theorem witness_CopyoutCopiesTheResult :
    let turns := (ScriptLine.copyout .inA 3).turns ++ [.reset]
    (doneState turns).busy = false ∧ Buf.inA ≠ .out ∧ 3 ≤ (doneState turns).setup.cap.val ∧
      (∀ a, a < 3 → Memory.get? (doneState turns).out a ≠ none) ∧
      (doneState turns).turns = (ScriptLine.copyout .inA 3).turns ++ [.reset] := by decide

theorem witness_KeyLineSetsTheKey :
    (doneState ((ScriptLine.key ivA).turns ++ [.reset])).busy = false ∧
    (doneState ((ScriptLine.key ivA).turns ++ [.reset])).turns = (ScriptLine.key ivA).turns ++ [.reset] := by decide

theorem witness_WaitEndsWithDone :
    Inv (busyState .unmerge ((ScriptLine.wait 2).turns ++ [])) ∧
    (busyState .unmerge ((ScriptLine.wait 2).turns ++ [])).busy = true ∧
    (busyState .unmerge ((ScriptLine.wait 2).turns ++ [])).turns = (ScriptLine.wait 2).turns ++ [] :=
  ⟨busyState_inv _ _, by decide, by decide⟩

end Sys2Proof.Tests
end

section
/-! Reset (10_state.md R38): the reset state and the state the reset input leaves read alike. -/

namespace Sys2Proof.Machine

@[simp] theorem readReg_reset (r : Reg) : State.reset.readReg r = 0 := by cases r <;> rfl

@[simp] theorem get?_buffer_reset (b : Buf) (a : Nat) : Memory.get? (State.reset.buffer b) a = none := by
  cases b <;> rfl

@[simp] theorem readReg_resetBlock (s : State) (r : Reg) : (resetBlock s).readReg r = 0 := by cases r <;> rfl

@[simp] theorem get?_buffer_resetBlock (s : State) (b : Buf) (a : Nat) :
    Memory.get? ((resetBlock s).buffer b) a = none := by cases b <;> rfl

/-- Settles O9: the reset turn leads to `resetBlock`, whose registers and buffers read as those of `State.reset`. -/
theorem resetLeavesTheResetState : Obligations.ResetLeavesTheResetState := by
  unfold Obligations.ResetLeavesTheResetState
  refine ⟨fun s rest h => ⟨resetBlock { s with turns := rest }, ?_, ?_, ?_, ?_, ?_⟩, readReg_reset, rfl,
    get?_buffer_reset, rfl⟩
  · rw [step_cons h, performTurn_reset]
  · exact readReg_resetBlock _
  · exact resetBlock_status _
  · exact get?_buffer_resetBlock _
  · exact resetBlock_curOp _

end Sys2Proof.Machine
end

section
/-! What a step can do to a command's inputs, the operand and key registers and the buffers IN_A and IN_B (10_state.md R28, R33): only a host write or reset changes any of them. -/

namespace Sys2Proof.Machine

/-- The operand and key registers (10_state.md R22, R23). -/
abbrev operandRegs : List Reg := [Reg.aw, Reg.ah, Reg.bw, Reg.bh, Reg.alen, Reg.key0, Reg.key1]

/-- The operand and key registers and the input buffers of `t` are those of `s`. -/
structure InputsKept (s t : State) : Prop where
  reg : ∀ r, r ∈ operandRegs → t.readReg r = s.readReg r
  buf : ∀ b, b ≠ .out → t.buffer b = s.buffer b

theorem InputsKept.refl (s : State) : InputsKept s s := ⟨fun _ _ => rfl, fun _ _ => rfl⟩

theorem InputsKept.trans {s t u : State} (h : InputsKept s t) (h' : InputsKept t u) : InputsKept s u :=
  ⟨fun r hr => (h'.reg r hr).trans (h.reg r hr), fun b hb => (h'.buf b hb).trans (h.buf b hb)⟩

theorem exec_keepsInputs {i : Instr} {s t : State} (h : exec i s = .next t) : InputsKept s t :=
  ⟨readReg_exec h, buffer_exec h⟩

theorem issue_keepsInputs (i : Instr) (s : State) : InputsKept s (issue i s) where
  reg r hr := by fin_cases hr <;> rfl
  buf b hb := by cases b <;> simp_all [State.buffer]

theorem raiseError_keepsInputs (e : ErrorCode) (s : State) : InputsKept s (raiseError e s) where
  reg r hr := by fin_cases hr <;> rfl
  buf b hb := by cases b <;> simp_all [State.buffer]

theorem issueCommand_keepsInputs (w : Word) (s : State) : InputsKept s (issueCommand w s) := by
  rcases issueCommand_cases w s with ⟨i, _, h⟩ | ⟨_, _, h⟩ <;> rw [h]
  · exact issue_keepsInputs i s
  · exact raiseError_keepsInputs _ s

theorem engineTurn_keepsInputs {s t : State} (h : engineTurn s = .next t) : InputsKept s t := by
  rcases engineTurn_cases h with ⟨_, rfl⟩ | ⟨_, _, _, he⟩
  · exact .refl _
  · exact exec_keepsInputs he

theorem fusedCommand_keepsInputs {w : Word} {s t : State} (h : fusedCommand w s = .next t) : InputsKept s t := by
  obtain ⟨_, ⟨i, _, he⟩ | ⟨_, _, rfl⟩⟩ := fusedCommand_cases h
  · exact (issue_keepsInputs i s).trans (exec_keepsInputs he)
  · exact raiseError_keepsInputs _ s

/-- A host action keeps the inputs, or writes one register, or writes one buffer of an idle block. -/
theorem hostAction_inputs {x : HostAction} {s t : State} (h : hostAction x s = .next t) :
    InputsKept s t ∨
    (∃ r v, x = .regWrite r.offset 32 v ∧ t = s.writeReg r v) ∨
    (∃ b a v, x = .bufWrite b a v ∧ s.busy = false ∧ (∀ r, t.readReg r = s.readReg r) ∧
      ∀ b', b' ≠ b → t.buffer b' = s.buffer b') := by
  rcases hostAction_cases h with ⟨r, _, _, rfl⟩ | ⟨v, _, _, rfl⟩ | ⟨r, v, hx, _, _, ht⟩ | ⟨b, a, _, _, _, ht⟩ |
      ⟨b, a, v, hx, hb, _, ht⟩
  case inl => exact .inl ⟨fun r _ => by cases r <;> rfl, fun b _ => by cases b <;> rfl⟩
  case inr.inl => exact .inl (issueCommand_keepsInputs v s)
  case inr.inr.inl => exact .inr (.inl ⟨r, v, hx, ht⟩)
  case inr.inr.inr.inl =>
    left
    rcases ht with ht | ht <;> rw [ht] <;>
      exact ⟨fun r _ => by cases r <;> rfl, fun b _ => by cases b <;> rfl⟩
  case inr.inr.inr.inr =>
    refine .inr (.inr ⟨b, a, v, hx, hb, ?_⟩)
    rcases ht with ⟨rfl, rfl⟩ | ⟨rfl, rfl⟩ | ⟨rfl, rfl⟩
    · exact ⟨fun r => by cases r <;> rfl, fun b' hb' => by cases b' <;> simp_all [State.buffer]⟩
    · exact ⟨fun r => by cases r <;> rfl, fun b' hb' => by cases b' <;> simp_all [State.buffer]⟩
    · exact ⟨fun _ => rfl, fun _ _ => rfl⟩

/-- Only the reset turn and a host's turn can change an input. -/
theorem step_inputs {s t : State} (h : step s = .next t) :
    (∃ rest, s.turns = .reset :: rest) ∨ InputsKept s t ∨
    ∃ x rest, s.turns = .host x :: rest ∧ hostAction x { s with turns := rest } = .next t := by
  cases hts : s.turns with
  | nil =>
    rw [step_nil hts] at h
    exact .inr (.inl (engineTurn_keepsInputs h))
  | cons turn rest =>
    have hrest : InputsKept s { s with turns := rest } :=
      ⟨fun r _ => readReg_withTurns s rest r, fun b _ => buffer_withTurns s rest b⟩
    rw [step_cons hts] at h
    cases turn with
    | reset => exact .inl ⟨rest, rfl⟩
    | engine => exact .inr (.inl (hrest.trans (engineTurn_keepsInputs h)))
    | command w => exact .inr (.inl (hrest.trans (fusedCommand_keepsInputs h)))
    | host x => exact .inr (.inr ⟨x, rest, rfl, h⟩)

/-- An operand or key register that a host action changes is the one it writes, with the word written. -/
theorem hostAction_changes_register {x : HostAction} {s t : State} {r : Reg} (h : hostAction x s = .next t)
    (hr : r ∈ operandRegs) (hne : t.readReg r ≠ s.readReg r) :
    ∃ v, x = .regWrite r.offset 32 v ∧ t.readReg r = v := by
  rcases hostAction_inputs h with hk | ⟨r', v, hx, rfl⟩ | ⟨b, a, v, _, _, hreg, _⟩
  · exact absurd (hk.reg r hr) hne
  · rw [readReg_writeReg] at hne
    obtain ⟨rfl, _⟩ : r = r' ∧ _ := by
      by_contra hc
      exact hne (if_neg hc)
    exact ⟨v, hx, by rw [readReg_writeReg, if_pos ⟨rfl, hr⟩]⟩
  · exact absurd (hreg r) hne

/-- An input buffer that a host action changes is the one it writes, in an idle block. -/
theorem hostAction_changes_buffer {x : HostAction} {s t : State} {b : Buf} (h : hostAction x s = .next t)
    (hb : b ≠ .out) (hne : t.buffer b ≠ s.buffer b) : ∃ a v, x = .bufWrite b a v ∧ s.busy = false := by
  rcases hostAction_inputs h with hk | ⟨r, v, _, rfl⟩ | ⟨b', a, v, hx, hbusy, _, hbuf⟩
  · exact absurd (hk.buf b hb) hne
  · exact absurd (by cases b <;> simp [State.buffer]) hne
  · obtain rfl : b = b' := by
      by_contra hc
      exact hne (hbuf b hc)
    exact ⟨a, v, hx, hbusy⟩

/-- Settles O22: a step without reset that changes an input is a host's turn, and the host's action is then the write. -/
theorem operandsChangeOnlyByHostOrReset : Obligations.OperandsChangeOnlyByHostOrReset := by
  unfold Obligations.OperandsChangeOnlyByHostOrReset
  intro s t h hreset
  rcases step_inputs h with ⟨rest, hts⟩ | hk | ⟨x, rest, hts, hx⟩
  · exact absurd hts (hreset rest)
  · exact ⟨fun r hr hne => absurd (hk.reg r hr) hne, fun b hb hne => absurd (hk.buf b hb) hne⟩
  · constructor
    · intro r hr hne
      rw [← readReg_withTurns s rest] at hne
      obtain ⟨v, rfl, hv⟩ := hostAction_changes_register hx hr hne
      exact ⟨v, rest, hts, hv⟩
    · intro b hb hne
      rw [← buffer_withTurns s rest] at hne
      obtain ⟨a, v, rfl, hbusy⟩ := hostAction_changes_buffer hx hb hne
      exact ⟨a, v, rest, hts, hbusy⟩

end Sys2Proof.Machine
end

section
/-! A command's results are a function of its inputs (10_state.md R36): images that agree inside their extent merge and unmerge alike, equal byte strings and keys give equal envelopes. -/

namespace Sys2Proof.Machine

/-! ## Images that agree inside their extent -/

/-- Two images of one size with the same pixels inside it; what `px` answers outside does not count (00_scope.md R12). -/
structure SamePixels (p q : Image) : Prop where
  w  : p.w = q.w
  h  : p.h = q.h
  px : ∀ x y c, x < p.w → y < p.h → c < 3 → p.px x y c = q.px x y c

theorem SamePixels.layout_eq {p q : Image} (h : SamePixels p q) : layout p = layout q := layout_congr h.w h.h h.px

/-- The images at the start of a buffer agree when the bytes they occupy do (20_memory.md R60). -/
theorem samePixels_img {s s' : State} {b : Buf} {w h : Nat}
    (hb : ∀ a, a < imageBytes w h → s.byteAt b a = s'.byteAt b a) : SamePixels (s.img b w h) (s'.img b w h) :=
  ⟨rfl, rfl, fun _ _ _ hx hy hc => hb _ (off_lt hx hy hc)⟩

theorem SamePixels.pay_eq {p q : Image} (h : SamePixels p q) (x y : Nat) {c : Nat} (hc : c < 3) :
    pay p x y c = pay q x y c := by
  unfold pay
  rw [← h.w, ← h.h]
  split
  · rename_i hin
    exact h.px x y c hin.1 hin.2 hc
  · rfl

theorem samePixels_mergeImg {c c' p p' : Image} (hc : SamePixels c c') (hp : SamePixels p p') :
    SamePixels (mergeImg c p) (mergeImg c' p') where
  w := hc.w
  h := hc.h
  px x y ch hx hy hch := congrArg₂ mergeByte (hc.px x y ch hx hy hch) (hp.pay_eq x y hch)

theorem samePixels_recon {m m' : Image} (h : SamePixels m m') : SamePixels (recon m) (recon m') where
  w := h.w
  h := h.h
  px x y c hx hy hc := congrArg unmergeByte (h.px x y c hx hy hc)

theorem SamePixels.extent_eq {m m' : Image} (h : SamePixels m m') : extent m = extent m' := by
  refine extent_congr h.w h.h fun x y hx hy => ?_
  have hpx := fun c (hc : c < 3) => (samePixels_recon h).px x y c hx hy hc
  unfold nonblack
  rw [hpx 0 (by decide), hpx 1 (by decide), hpx 2 (by decide)]

/-- The cropped images agree because the extent lies inside the merged image. -/
theorem samePixels_unmergeImg {m m' : Image} (h : SamePixels m m') : SamePixels (unmergeImg m) (unmergeImg m') where
  w := congrArg Prod.fst h.extent_eq
  h := congrArg Prod.snd h.extent_eq
  px x y c hx hy hc := by
    have hle := extent_le m
    exact (samePixels_recon h).px x y c (lt_of_lt_of_le hx hle.1) (lt_of_lt_of_le hy hle.2) hc

/-! ## Commands that run alike -/

/-- The command completes from both states, with the same results. -/
def RunAlike (i : Instr) (s s' : State) : Prop :=
  ∃ t t', exec i s = .next t ∧ exec i s' = .next t' ∧ SameResults t t'

theorem runAlike_raiseError {i : Instr} {e : ErrorCode} {s s' : State} (h : exec i s = .next (raiseError e s))
    (h' : exec i s' = .next (raiseError e s')) : RunAlike i s s' :=
  ⟨_, _, h, h', rfl, rfl, rfl, rfl, rfl⟩

theorem runAlike_complete {i : Instr} {ow oh : Nat} {bytes : List Byte} {s s' u u' : State}
    (h : exec i s = .next (complete ow oh bytes u)) (h' : exec i s' = .next (complete ow oh bytes u')) :
    RunAlike i s s' :=
  ⟨_, _, h, h', rfl, rfl, rfl, rfl, rfl⟩

theorem stringA_congr {s s' : State} (hl : s.alen = s'.alen)
    (hA : ∀ a, a < s.alen.toNat → s.byteAt .inA a = s'.byteAt .inA a) : s.stringA = s'.stringA := by
  unfold State.stringA
  rw [← hl]
  exact bytesOf_congr hA

theorem key_congr {s s' : State} (h0 : s.key0 = s'.key0) (h1 : s.key1 = s'.key1) : s.key = s'.key := by
  unfold State.key
  rw [h0, h1]

theorem imgA_congr {s s' : State} (hw : s.aw = s'.aw) (hh : s.ah = s'.ah)
    (hA : ∀ a, a < imageBytes s.aw.toNat s.ah.toNat → s.byteAt .inA a = s'.byteAt .inA a) :
    SamePixels s.imgA s'.imgA := by
  unfold State.imgA
  rw [← hw, ← hh]
  exact samePixels_img hA

theorem imgB_congr {s s' : State} (hw : s.bw = s'.bw) (hh : s.bh = s'.bh)
    (hB : ∀ a, a < imageBytes s.bw.toNat s.bh.toNat → s.byteAt .inB a = s'.byteAt .inB a) :
    SamePixels s.imgB s'.imgB := by
  unfold State.imgB
  rw [← hw, ← hh]
  exact samePixels_img hB

theorem merge_runAlike {s s' : State} (h : SameInputs .merge s s') : RunAlike .merge s s' := by
  obtain ⟨hset, haw, hah, hbw, hbh, hA, hB⟩ := h
  by_cases hd : s.aw.toNat < s.bw.toNat ∨ s.ah.toNat < s.bh.toNat
  · exact runAlike_raiseError (exec_merge_dimension hd)
      (exec_merge_dimension (by rwa [← haw, ← hah, ← hbw, ← hbh]))
  obtain ⟨hw, hh⟩ : s.bw.toNat ≤ s.aw.toNat ∧ s.bh.toNat ≤ s.ah.toNat := by omega
  have hw' : s'.bw.toNat ≤ s'.aw.toNat := by rwa [← haw, ← hbw]
  have hh' : s'.bh.toNat ≤ s'.ah.toNat := by rwa [← hah, ← hbh]
  rcases Nat.lt_or_ge s.setup.cap.val (imageBytes s.aw.toNat s.ah.toNat) with hc | hc
  · exact runAlike_raiseError (exec_merge_capacity hw hh hc)
      (exec_merge_capacity hw' hh' (by rwa [← hset, ← haw, ← hah]))
  · have hpx := samePixels_mergeImg (imgA_congr haw hah hA) (imgB_congr hbw hbh hB)
    have he' := exec_merge_result hw' hh' (by rwa [← hset, ← haw, ← hah])
    rw [← haw, ← hah, ← hpx.layout_eq] at he'
    exact runAlike_complete (exec_merge_result hw hh hc) he'

theorem unmerge_runAlike {s s' : State} (h : SameInputs .unmerge s s') : RunAlike .unmerge s s' := by
  obtain ⟨hset, haw, hah, hA⟩ := h
  rcases Nat.lt_or_ge s.setup.cap.val (imageBytes s.aw.toNat s.ah.toNat) with hc | hc
  · exact runAlike_raiseError (exec_unmerge_capacity hc) (exec_unmerge_capacity (by rwa [← hset, ← haw, ← hah]))
  · have hpx := imgA_congr haw hah hA
    have he' := exec_unmerge_result (s := s') (by rwa [← hset, ← haw, ← hah])
    rw [← hpx.extent_eq, ← (samePixels_unmergeImg hpx).layout_eq] at he'
    exact runAlike_complete (exec_unmerge_result hc) he'

theorem envpad_runAlike {s s' : State} (h : SameInputs .envpad s s') : RunAlike .envpad s s' := by
  obtain ⟨hset, hl, h0, h1, hiv, hA⟩ := h
  rcases Nat.lt_or_ge s.setup.cap.val s.alen.toNat with hc | hc
  · exact runAlike_raiseError (exec_envpad_capacity hc) (exec_envpad_capacity (by rwa [← hset, ← hl]))
  · have he' := exec_envpad_result (s := s') (by rwa [← hset, ← hl])
    rw [← hset, ← stringA_congr hl hA, ← key_congr h0 h1, ← hiv] at he'
    exact runAlike_complete (exec_envpad_result hc) he'

theorem envunpad_runAlike {s s' : State} (h : SameInputs .envunpad s s') : RunAlike .envunpad s s' := by
  obtain ⟨hset, hl, h0, h1, hA⟩ := h
  cases hf : formatOk s.alen.toNat with
  | false => exact runAlike_raiseError (exec_envunpad_format hf) (exec_envunpad_format (by rwa [← hl]))
  | true =>
    have hf' : formatOk s'.alen.toNat = true := by rwa [← hl]
    rcases Nat.lt_or_ge s.setup.cap.val s.alen.toNat with hc | hc
    · exact runAlike_raiseError (exec_envunpad_capacity hf hc) (exec_envunpad_capacity hf' (by rwa [← hset, ← hl]))
    · have hc' : s'.alen.toNat ≤ s'.setup.cap.val := by rwa [← hset, ← hl]
      have hdec : decryptBlob s.setup.cipher s.key s.stringA = decryptBlob s'.setup.cipher s'.key s'.stringA := by
        rw [hset, key_congr h0 h1, stringA_congr hl hA]
      cases hp : padOk (decryptBlob s.setup.cipher s.key s.stringA) with
      | false =>
        exact runAlike_raiseError (exec_envunpad_padding hf hc hp) (exec_envunpad_padding hf' hc' (by rwa [← hdec]))
      | true =>
        have he' := exec_envunpad_result hf' hc' (by rwa [← hdec])
        rw [← hdec] at he'
        exact runAlike_complete (exec_envunpad_result hf hc hp) he'

theorem exec_runAlike {i : Instr} {s s' : State} (h : SameInputs i s s') : RunAlike i s s' := by
  cases i with
  | merge => exact merge_runAlike h
  | unmerge => exact unmerge_runAlike h
  | envpad => exact envpad_runAlike h
  | envunpad => exact envunpad_runAlike h

/-- Settles O29: with the same inputs a command takes the same case, an error or a delivery of the same bytes. -/
theorem commandsAreStateless : Obligations.CommandsAreStateless := by
  unfold Obligations.CommandsAreStateless
  intro i s s' t t' hin ht ht'
  obtain ⟨u, u', hu, hu', hres⟩ := exec_runAlike hin
  rw [hu] at ht
  rw [hu'] at ht'
  cases ht
  cases ht'
  exact hres

end Sys2Proof.Machine
end

section
/-! The host's accesses (20_memory.md R51 to R57), one rule per access and case: what an idle block answers, what is refused. -/

namespace Sys2Proof.Machine

/-- A step with a pending host turn is the host's action on the state without that turn. -/
theorem step_host {s : State} {x : HostAction} {rest : List Turn} (h : s.turns = .host x :: rest) :
    step s = hostAction x { s with turns := rest } := step_cons h

/-! ## Registers -/

/-- Every number below 12 names a register (10_state.md R21). -/
theorem exists_reg_number {n : Nat} (hn : n < 12) : ∃ r : Reg, r.number = n :=
  match n, hn with
  | 0, _ => ⟨.cmd, rfl⟩
  | 1, _ => ⟨.status, rfl⟩
  | 2, _ => ⟨.aw, rfl⟩
  | 3, _ => ⟨.ah, rfl⟩
  | 4, _ => ⟨.bw, rfl⟩
  | 5, _ => ⟨.bh, rfl⟩
  | 6, _ => ⟨.alen, rfl⟩
  | 7, _ => ⟨.key0, rfl⟩
  | 8, _ => ⟨.key1, rfl⟩
  | 9, _ => ⟨.ow, rfl⟩
  | 10, _ => ⟨.oh, rfl⟩
  | 11, _ => ⟨.olen, rfl⟩

/-- Only STATUS has number 1. -/
theorem reg_number_eq_one {r : Reg} : r.number = 1 ↔ r = .status := by cases r <;> decide

/-- A read of a register returns its value, in an idle block and for STATUS in any state (R52). -/
theorem hostAction_regRead {s : State} {r : Reg} (h : s.busy = false ∨ r = .status) :
    hostAction (.regRead r.offset 32) s = .next { s with readWord := s.readReg r } := by
  simp only [hostAction, hostRegRead, regAt_offset]
  rw [if_neg]
  rcases h with h | h <;> simp [h]

/-- A busy block refuses the read of every register but STATUS (R58). -/
theorem hostAction_regRead_busy {s : State} {r : Reg} (hb : s.busy = true) (hr : r ≠ .status) :
    hostAction (.regRead r.offset 32) s = .refused .accessWhileBusy := by
  simp [hostAction, hostRegRead, hb, hr]

/-- A write of a register other than `CMD` in an idle block (R53). -/
theorem hostAction_regWrite {s : State} {r : Reg} (v : Word) (hb : s.busy = false) (hr : r ≠ .cmd) :
    hostAction (.regWrite r.offset 32 v) s = .next (s.writeReg r v) := by
  simp [hostAction, hostRegWrite, hb, hr]

/-- A busy block refuses the write of every register (R58). -/
theorem hostAction_regWrite_busy {s : State} (r : Reg) (v : Word) (hb : s.busy = true) :
    hostAction (.regWrite r.offset 32 v) s = .refused .accessWhileBusy := by
  simp [hostAction, hostRegWrite, hb]

/-- A read that means no register is refused in every state (R54). -/
theorem hostAction_regRead_odd {s : State} {offset width : Nat} {e : Refusal} (h : regAt offset width = .error e) :
    hostAction (.regRead offset width) s = .refused e := by
  simp [hostAction, hostRegRead, h]

/-- A write that means no register is refused in every state (R54). -/
theorem hostAction_regWrite_odd {s : State} {offset width : Nat} {e : Refusal} (v : Word)
    (h : regAt offset width = .error e) : hostAction (.regWrite offset width v) s = .refused e := by
  simp [hostAction, hostRegWrite, h]

/-- The registers in the order of their numbers, as the host reads them (10_state.md R21). -/
theorem readReg_by_number (s : State) (r : Reg) :
    [0, s.status, s.aw, s.ah, s.bw, s.bh, s.alen, s.key0, s.key1, s.ow, s.oh, s.olen][r.number]? =
      some (s.readReg r) := by cases r <;> rfl

/-- Settles O11: the number names a register, whose read returns its value or, in a busy block and not STATUS, is refused. -/
theorem registerReadReturnsTheRegister : Obligations.RegisterReadReturnsTheRegister := by
  unfold Obligations.RegisterReadReturnsTheRegister
  intro s n v rest hts hv
  have hn : n < 12 := (List.getElem?_eq_some_iff.mp hv).1
  obtain ⟨r, rfl⟩ := exists_reg_number hn
  obtain rfl : s.readReg r = v := Option.some.inj ((readReg_by_number s r).symm.trans hv)
  rw [step_host hts, ← readReg_withTurns s rest r]
  constructor
  · intro h
    exact hostAction_regRead (h.imp id reg_number_eq_one.mp)
  · intro hb hne
    exact ⟨_, hostAction_regRead_busy hb (mt reg_number_eq_one.mpr hne)⟩

/-- Settles O12: the write is `writeReg` of the register with that number, or for `CMD` the issue of a command. -/
theorem registerWriteSetsTheRegister : Obligations.RegisterWriteSetsTheRegister := by
  unfold Obligations.RegisterWriteSetsTheRegister
  intro s n v rest hts hn
  rw [step_host hts]
  constructor
  · intro hb
    have write (r : Reg) (hr : n = r.number) (hne : r ≠ .cmd) :
        hostAction (.regWrite (4 * n) 32 v) { s with turns := rest } =
          .next (State.writeReg { s with turns := rest } r v) := by
      subst hr
      exact hostAction_regWrite v hb hne
    refine ⟨?cmd, fun h => write .aw h nofun, fun h => write .ah h nofun, fun h => write .bw h nofun,
      fun h => write .bh h nofun, fun h => write .alen h nofun, fun h => write .key0 h nofun,
      fun h => write .key1 h nofun, ?readOnly⟩
    case cmd =>
      rintro rfl
      exact hostAction_writeCmd v hb
    case readOnly =>
      intro h
      obtain h | h | h | h : n = 1 ∨ n = 9 ∨ n = 10 ∨ n = 11 := by omega
      · exact write .status h nofun
      · exact write .ow h nofun
      · exact write .oh h nofun
      · exact write .olen h nofun
  · intro hb
    obtain ⟨r, rfl⟩ := exists_reg_number hn
    exact ⟨_, hostAction_regWrite_busy r v hb⟩

/-- Settles O13: such an access means no register. -/
theorem oddRegisterAccessIsRefused : Obligations.OddRegisterAccessIsRefused := by
  unfold Obligations.OddRegisterAccessIsRefused
  intro s offset width v rest hodd hts
  obtain ⟨e, he⟩ := regAt_error hodd
  rcases hts with hts | hts
  · exact ⟨e, (step_host hts).trans (hostAction_regRead_odd he)⟩
  · exact ⟨e, (step_host hts).trans (hostAction_regWrite_odd v he)⟩

/-! ## Buffers -/

/-- The capacity of a buffer as a bound on the offsets outside it (10_state.md R32). -/
theorem holds_succ_eq_false (s : State) (b : Buf) (a : Nat) :
    s.holds b (a + 1) = false ↔ (if b = .out then s.setup.cap.val + 16 else s.setup.cap.val) ≤ a := by
  rw [← Bool.not_eq_true, holds_succ, not_lt]

/-- A read of a known byte (R55). -/
theorem hostAction_bufRead_known {s : State} {b : Buf} {a : Nat} {v : Byte} (hb : s.busy = false)
    (ha : s.holds b (a + 1) = true) (hv : Memory.get? (s.buffer b) a = some v) :
    hostAction (.bufRead b a) s = .next { s with readByte := v } := by
  simp [hostAction, hostBufRead, hb, ha, hv]

/-- A read of an unspecified byte draws it (R55). -/
theorem hostAction_bufRead_unspecified {s : State} {b : Buf} {a : Nat} (hb : s.busy = false)
    (ha : s.holds b (a + 1) = true) (hv : Memory.get? (s.buffer b) a = none) :
    hostAction (.bufRead b a) s =
      .next { s with readByte := Config.freeByte s.freeDraws, freeDraws := s.freeDraws + 1 } := by
  simp [hostAction, hostBufRead, hb, ha, hv]

/-- A read of a busy block, or at or beyond the capacity, is refused (R55). -/
theorem hostAction_bufRead_refused {s : State} {b : Buf} {a : Nat}
    (h : s.busy = true ∨ s.holds b (a + 1) = false) : ∃ r, hostAction (.bufRead b a) s = .refused r := by
  simp only [hostAction, hostBufRead]
  split
  · exact ⟨_, rfl⟩
  next hb => exact ⟨_, if_pos (h.resolve_left hb)⟩

/-- A write to a busy block, or at or beyond the capacity, is refused (R56, R57). -/
theorem hostAction_bufWrite_refused {s : State} {b : Buf} {a : Nat} (v : HostByte)
    (h : s.busy = true ∨ s.holds b (a + 1) = false) : ∃ r, hostAction (.bufWrite b a v) s = .refused r := by
  simp only [hostAction, hostBufWrite]
  split
  · exact ⟨_, rfl⟩
  next hb => exact ⟨_, if_pos (h.resolve_left hb)⟩

/-- A write inside IN_A or IN_B of an idle block puts the byte into that buffer and changes nothing else (R56). -/
theorem hostAction_bufWrite_input {s : State} {b : Buf} {a : Nat} (v : HostByte) (hout : b ≠ .out)
    (hb : s.busy = false) (ha : s.holds b (a + 1) = true) :
    ∃ t, hostAction (.bufWrite b a v) s = .next t ∧
      t.buffer b = Memory.put (s.buffer b) a (s.hostByte v) ∧
      (∀ b', b' ≠ b → t.buffer b' = s.buffer b') ∧ t = { s with inA := t.inA, inB := t.inB } := by
  simp only [hostAction, hostBufWrite, hb, ha]
  cases b with
  | inA => exact ⟨_, rfl, rfl, fun | .inA, h => absurd rfl h | .inB, _ => rfl | .out, _ => rfl, rfl⟩
  | inB => exact ⟨_, rfl, rfl, fun | .inA, _ => rfl | .inB, h => absurd rfl h | .out, _ => rfl, rfl⟩
  | out => exact absurd rfl hout

/-- A write inside OUT of an idle block changes no state (R57). -/
theorem hostAction_bufWrite_out {s : State} {a : Nat} (v : HostByte) (hb : s.busy = false)
    (ha : s.holds .out (a + 1) = true) : hostAction (.bufWrite .out a v) s = .next s := by
  simp [hostAction, hostBufWrite, hb, ha]

/-- Settles O14: a read inside the buffer returns the known byte or a draw, every other read is refused. -/
theorem bufferReadReturnsTheByte : Obligations.BufferReadReturnsTheByte := by
  unfold Obligations.BufferReadReturnsTheByte
  intro s b a rest hts size
  rw [step_host hts]
  refine ⟨fun hb ha v hv => ?_, fun hb ha hv => ?_, fun h => ?_⟩
  · exact hostAction_bufRead_known hb ((holds_succ _ b a).mpr ha) (by rwa [buffer_withTurns])
  · exact hostAction_bufRead_unspecified hb ((holds_succ _ b a).mpr ha) (by rwa [buffer_withTurns])
  · exact hostAction_bufRead_refused (h.imp id (holds_succ_eq_false _ b a).mpr)

/-- Settles O15: the write is `Memory.put` into the one buffer, and read after write gives each byte. -/
theorem bufferWriteChangesOneByte : Obligations.BufferWriteChangesOneByte := by
  unfold Obligations.BufferWriteChangesOneByte
  intro s b a v rest hout hts byte
  have hbyte : State.hostByte { s with turns := rest } v = byte := by cases v <;> rfl
  have hsize : (if b = .out then s.setup.cap.val + 16 else s.setup.cap.val) = s.setup.cap.val := if_neg hout
  rw [step_host hts]
  constructor
  · intro hb ha
    obtain ⟨t, ht, hput, hother, hframe⟩ :=
      hostAction_bufWrite_input (s := { s with turns := rest }) v hout hb
        ((holds_succ _ b a).mpr (ha.trans_eq hsize.symm))
    rw [buffer_withTurns s rest b, hbyte] at hput
    refine ⟨t, ht, by rw [hput, get?_put, if_pos rfl], fun b' a' hne => ?_, hframe⟩
    by_cases hb' : b' = b
    · subst hb'
      rw [hput, get?_put, if_neg (hne.resolve_left (not_not_intro rfl))]
    · rw [hother b' hb', buffer_withTurns s rest b']
  · intro h
    exact hostAction_bufWrite_refused v (h.imp id fun ha => (holds_succ_eq_false _ b a).mpr (hsize.trans_le ha))

/-- Settles O16: a write inside OUT leaves the state as it is, one outside is refused. -/
theorem outIsReadOnlyForTheHost : Obligations.OutIsReadOnlyForTheHost := by
  unfold Obligations.OutIsReadOnlyForTheHost
  intro s a v rest hts
  rw [step_host hts]
  constructor
  · intro hb ha
    exact hostAction_bufWrite_out v hb ((holds_succ _ .out a).mpr ha)
  · intro ha
    exact hostAction_bufWrite_refused v (.inr ((holds_succ_eq_false _ .out a).mpr ha))

end Sys2Proof.Machine
end

section
/-! Legal command words (30_encoding.md R81): a word is a command's word exactly when its two fields are the command's. -/

namespace Sys2Proof

@[simp] theorem zeroField_encode (i : Instr) : zeroField (encode i) = 0 := by cases i <;> rfl

@[simp] theorem opcodeField_encode (i : Instr) : opcodeField (encode i) = i.opcode := by cases i <;> rfl

/-- The two fields are the whole word (R80), so no other bit can tell it from the command's word. -/
theorem eq_encode_iff_fields {w : Word} {i : Instr} : w = encode i ↔ zeroField w = 0 ∧ opcodeField w = i.opcode := by
  constructor
  · rintro rfl
    exact ⟨zeroField_encode i, opcodeField_encode i⟩
  · rintro ⟨hzero, hop⟩
    calc w = zeroField w ++ opcodeField w := word_eq_fields w
      _ = encode i := by rw [hzero, hop, encode]

/-- The rows of the opcode map (R81). -/
theorem exists_eq_opcode_iff {b : BitVec 8} :
    (∃ i : Instr, b = i.opcode) ↔ b = 0x01#8 ∨ b = 0x02#8 ∨ b = 0x03#8 ∨ b = 0x04#8 := by
  constructor
  · rintro ⟨i, rfl⟩
    cases i <;> decide
  · rintro (rfl | rfl | rfl | rfl)
    exacts [⟨.merge, rfl⟩, ⟨.unmerge, rfl⟩, ⟨.envpad, rfl⟩, ⟨.envunpad, rfl⟩]

/-- R81's condition on the two fields is what `decode` accepts. -/
theorem exists_decode_eq_ok_iff {w : Word} :
    (∃ i, decode w = .ok i) ↔
      zeroField w = 0 ∧
        (opcodeField w = 0x01#8 ∨ opcodeField w = 0x02#8 ∨ opcodeField w = 0x03#8 ∨ opcodeField w = 0x04#8) := by
  simp only [decode_eq_ok_iff, eq_encode_iff_fields, exists_and_left, exists_eq_opcode_iff]

/-- Settles O2: a decoded word is its command's word, which its two fields determine. -/
theorem decodeAndEncodeAgreeOnEveryWord : Obligations.DecodeAndEncodeAgreeOnEveryWord := by
  unfold Obligations.DecodeAndEncodeAgreeOnEveryWord
  exact ⟨fun _ => exists_decode_eq_ok_iff, fun _ _ => decode_eq_ok_iff, rfl, rfl, rfl, rfl⟩

end Sys2Proof
end

section
/-! The nibble functions as numbers (40_pixel_codec.md R100, R104): each puts two nibbles side by side, and two nibbles side by side are 16 times the upper one plus the lower one. -/

namespace Sys2Proof.Machine

/-- Bits 7:4 of a byte. -/
def upperNibble (b : Byte) : BitVec 4 := b.extractLsb' 4 4

/-- Bits 3:0 of a byte. -/
def lowerNibble (b : Byte) : BitVec 4 := b.extractLsb' 0 4

theorem upperNibble_bit (b : Byte) {i : Nat} (hi : i < 4) : (upperNibble b).getLsbD i = b.getLsbD (i + 4) := by
  rw [upperNibble, BitVec.getLsbD_extractLsb', decide_eq_true hi, Bool.true_and, Nat.add_comm]

theorem lowerNibble_bit (b : Byte) {i : Nat} (hi : i < 4) : (lowerNibble b).getLsbD i = b.getLsbD i := by
  rw [lowerNibble, BitVec.getLsbD_extractLsb', decide_eq_true hi, Bool.true_and, Nat.zero_add]

@[simp] theorem toNat_upperNibble (b : Byte) : (upperNibble b).toNat = b.toNat / 16 := by
  rw [upperNibble, BitVec.extractLsb'_toNat, Nat.shiftRight_eq_div_pow]
  omega

@[simp] theorem toNat_lowerNibble (b : Byte) : (lowerNibble b).toNat = b.toNat % 16 := by
  rw [lowerNibble, BitVec.extractLsb'_toNat, Nat.shiftRight_zero]

@[simp] theorem lowerNibble_append (hi lo : BitVec 4) : lowerNibble (hi ++ lo) = lo :=
  BitVec.extractLsb'_append_eq_right

theorem toNat_append_nibbles (hi lo : BitVec 4) : (hi ++ lo).toNat = 16 * hi.toNat + lo.toNat := by
  rw [BitVec.toNat_append, ← Nat.shiftLeft_add_eq_or_of_lt lo.isLt, Nat.shiftLeft_eq, Nat.mul_comm]

/-- R100: the carrier's upper nibble beside the payload's. -/
theorem mergeByte_eq_append (cb pb : Byte) : mergeByte cb pb = upperNibble cb ++ upperNibble pb := by
  apply BitVec.eq_of_getLsbD_eq
  intro i hi
  rw [mergeByte_bit cb pb i hi, BitVec.getLsbD_append]
  split
  next hlow => rw [upperNibble_bit pb hlow]
  next hhigh => rw [upperNibble_bit cb (by omega), Nat.sub_add_cancel (Nat.not_lt.mp hhigh)]

/-- R104: the merged byte's lower nibble beside a zero nibble. -/
theorem unmergeByte_eq_append (mb : Byte) : unmergeByte mb = lowerNibble mb ++ 0#4 := by
  apply BitVec.eq_of_getLsbD_eq
  intro i hi
  rw [unmergeByte_bit mb i hi, BitVec.getLsbD_append]
  split
  next => rw [BitVec.getLsbD_zero]
  next => rw [lowerNibble_bit mb (by omega)]

theorem and_0xF0_eq_append (b : Byte) : b &&& 0xF0#8 = upperNibble b ++ 0#4 := by
  apply BitVec.eq_of_getLsbD_eq
  intro i hi
  rw [upper_bit b i hi, BitVec.getLsbD_append]
  split
  next => rw [BitVec.getLsbD_zero]
  next hhigh => rw [upperNibble_bit b (by omega), Nat.sub_add_cancel (Nat.not_lt.mp hhigh)]

theorem toNat_mergeByte (cb pb : Byte) : (mergeByte cb pb).toNat = 16 * (cb.toNat / 16) + pb.toNat / 16 := by
  rw [mergeByte_eq_append, toNat_append_nibbles, toNat_upperNibble, toNat_upperNibble]

theorem toNat_unmergeByte (mb : Byte) : (unmergeByte mb).toNat = 16 * (mb.toNat % 16) := by
  rw [unmergeByte_eq_append, toNat_append_nibbles, toNat_lowerNibble, BitVec.toNat_zero, Nat.add_zero]

/-- The round trip of one byte (R118): the payload's upper nibble comes back, over zeros. -/
theorem unmergeByte_mergeByte (cb pb : Byte) : unmergeByte (mergeByte cb pb) = pb &&& 0xF0#8 := by
  rw [mergeByte_eq_append, unmergeByte_eq_append, lowerNibble_append, and_0xF0_eq_append]

/-- Settles O31: each byte function is two nibbles side by side, read as a number. -/
theorem nibbleFunctionsAsNumbers : Obligations.NibbleFunctionsAsNumbers := by
  unfold Obligations.NibbleFunctionsAsNumbers
  exact fun cb pb => ⟨toNat_mergeByte cb pb, toNat_unmergeByte cb, unmergeByte_mergeByte cb pb⟩

end Sys2Proof.Machine
end

section
/-! Which error a command ends with (60_exceptions.md R171, R172, R175): the checks that speak of registers alone come first, the capacity check after them, and past all three only ENVUNPAD can still fail, by its padding. -/

namespace Sys2Proof.Machine

/-! ## The checks -/

/-- R171, DimensionError: MERGE with a payload larger than the carrier in either dimension. -/
def DimensionFails (i : Instr) (s : State) : Prop :=
  i = .merge ∧ (s.aw.toNat < s.bw.toNat ∨ s.ah.toNat < s.bh.toNat)

/-- R171, FormatError: ENVUNPAD on a length that is not an IV and whole blocks. -/
def FormatFails (i : Instr) (s : State) : Prop :=
  i = .envunpad ∧ (s.alen.toNat < 16 ∨ (s.alen.toNat - 8) % 8 ≠ 0)

/-- R172: the command's input does not fit the input buffer. -/
def InputTooLong (i : Instr) (s : State) : Prop :=
  ((i = .merge ∨ i = .unmerge) ∧ s.setup.cap.val < 3 * s.aw.toNat * s.ah.toNat) ∨
    ((i = .envpad ∨ i = .envunpad) ∧ s.setup.cap.val < s.alen.toNat)

theorem not_dimensionFails_merge {s : State} :
    ¬ DimensionFails .merge s ↔ s.bw.toNat ≤ s.aw.toNat ∧ s.bh.toNat ≤ s.ah.toNat := by
  simp [DimensionFails]

theorem formatFails_envunpad {s : State} : FormatFails .envunpad s ↔ formatOk s.alen.toNat = false := by
  rw [FormatFails, ← Bool.not_eq_true, formatOk_iff]
  simp only [true_and]
  omega

theorem inputTooLong_merge {s : State} :
    InputTooLong .merge s ↔ s.setup.cap.val < imageBytes s.aw.toNat s.ah.toNat := by
  simp [InputTooLong, imageBytes]

theorem inputTooLong_unmerge {s : State} :
    InputTooLong .unmerge s ↔ s.setup.cap.val < imageBytes s.aw.toNat s.ah.toNat := by
  simp [InputTooLong, imageBytes]

theorem inputTooLong_envpad {s : State} : InputTooLong .envpad s ↔ s.setup.cap.val < s.alen.toNat := by
  simp [InputTooLong]

theorem inputTooLong_envunpad {s : State} : InputTooLong .envunpad s ↔ s.setup.cap.val < s.alen.toNat := by
  simp [InputTooLong]

/-- The two checks on registers belong to different commands. -/
theorem DimensionFails.not_formatFails {i : Instr} {s : State} (h : DimensionFails i s) : ¬ FormatFails i s := by
  obtain ⟨rfl, _⟩ := h
  rintro ⟨hi, _⟩
  cases hi

/-! ## What a command does after its checks -/

theorem exec_of_dimensionFails {i : Instr} {s : State} (h : DimensionFails i s) :
    exec i s = .next (raiseError .dimension s) := by
  obtain ⟨rfl, hsize⟩ := h
  exact exec_merge_dimension hsize

theorem exec_of_formatFails {i : Instr} {s : State} (h : FormatFails i s) :
    exec i s = .next (raiseError .format s) := by
  obtain rfl := h.1
  exact exec_envunpad_format (formatFails_envunpad.mp h)

theorem exec_of_inputTooLong {i : Instr} {s : State} (hd : ¬ DimensionFails i s) (hf : ¬ FormatFails i s)
    (hc : InputTooLong i s) : exec i s = .next (raiseError .capacity s) := by
  cases i with
  | merge =>
    obtain ⟨hw, hh⟩ := not_dimensionFails_merge.mp hd
    exact exec_merge_capacity hw hh (inputTooLong_merge.mp hc)
  | unmerge => exact exec_unmerge_capacity (inputTooLong_unmerge.mp hc)
  | envpad => exact exec_envpad_capacity (inputTooLong_envpad.mp hc)
  | envunpad =>
    rw [formatFails_envunpad, Bool.not_eq_false] at hf
    exact exec_envunpad_capacity hf (inputTooLong_envunpad.mp hc)

/-- A command that passes the three checks delivers a result, or it is ENVUNPAD and finds bad padding. -/
theorem exec_of_checks_pass {i : Instr} {s : State} (hd : ¬ DimensionFails i s) (hf : ¬ FormatFails i s)
    (hc : ¬ InputTooLong i s) :
    (∃ ow oh bytes s', exec i s = .next (complete ow oh bytes s')) ∨
      (i = .envunpad ∧ exec i s = .next (raiseError .padding s)) := by
  cases i with
  | merge =>
    obtain ⟨hw, hh⟩ := not_dimensionFails_merge.mp hd
    rw [inputTooLong_merge, Nat.not_lt] at hc
    exact .inl ⟨_, _, _, _, exec_merge_result hw hh hc⟩
  | unmerge =>
    rw [inputTooLong_unmerge, Nat.not_lt] at hc
    exact .inl ⟨_, _, _, _, exec_unmerge_result hc⟩
  | envpad =>
    rw [inputTooLong_envpad, Nat.not_lt] at hc
    exact .inl ⟨_, _, _, _, exec_envpad_result hc⟩
  | envunpad =>
    rw [formatFails_envunpad, Bool.not_eq_false] at hf
    rw [inputTooLong_envunpad, Nat.not_lt] at hc
    cases hp : padOk (decryptBlob s.setup.cipher s.key s.stringA) with
    | false => exact .inr ⟨rfl, exec_envunpad_padding hf hc hp⟩
    | true => exact .inl ⟨_, _, _, _, exec_envunpad_result hf hc hp⟩

/-! ## The code in STATUS -/

theorem ecode_of_exec_raise {i : Instr} {e : ErrorCode} {s t : State} (h : exec i s = .next t)
    (he : exec i s = .next (raiseError e s)) : statusEcode t.status = e.code := by
  rw [he] at h
  cases h
  exact ecode_raise e s

theorem ecode_of_exec_complete {i : Instr} {ow oh : Nat} {bytes : List Byte} {s s' t : State} (h : exec i s = .next t)
    (hr : exec i s = .next (complete ow oh bytes s')) : statusEcode t.status = 0 := by
  rw [hr] at h
  cases h
  exact ecode_complete ow oh bytes s'

/-- The order of the checks (R175), read off the code. -/
theorem exec_ecode_cases {i : Instr} {s t : State} (h : exec i s = .next t) :
    (DimensionFails i s ∧ statusEcode t.status = 1) ∨
      (FormatFails i s ∧ statusEcode t.status = 2) ∨
      (¬ DimensionFails i s ∧ ¬ FormatFails i s ∧ InputTooLong i s ∧ statusEcode t.status = 4) ∨
      (¬ DimensionFails i s ∧ ¬ FormatFails i s ∧ ¬ InputTooLong i s ∧
        (statusEcode t.status = 0 ∨ (i = .envunpad ∧ statusEcode t.status = 3))) := by
  by_cases hd : DimensionFails i s
  · exact .inl ⟨hd, ecode_of_exec_raise h (exec_of_dimensionFails hd)⟩
  by_cases hf : FormatFails i s
  · exact .inr (.inl ⟨hf, ecode_of_exec_raise h (exec_of_formatFails hf)⟩)
  by_cases hc : InputTooLong i s
  · exact .inr (.inr (.inl ⟨hd, hf, hc, ecode_of_exec_raise h (exec_of_inputTooLong hd hf hc)⟩))
  refine .inr (.inr (.inr ⟨hd, hf, hc, ?_⟩))
  rcases exec_of_checks_pass hd hf hc with ⟨_, _, _, _, hr⟩ | ⟨hi, he⟩
  · exact .inl (ecode_of_exec_complete h hr)
  · exact .inr ⟨hi, ecode_of_exec_raise h he⟩

/-- ERR and ECODE agree after a command (10_state.md R25). -/
theorem exec_err_iff_ecode {i : Instr} {s t : State} (h : exec i s = .next t) :
    statusErr t.status = true ↔ statusEcode t.status ≠ 0 := by
  rcases exec_cases i s with ⟨e, _, he⟩ | ⟨ow, oh, bytes, s', hr, _⟩
  · rw [he] at h
    cases h
    rw [err_raise, ecode_raise]
    cases e <;> decide
  · rw [hr] at h
    cases h
    rw [err_complete, ecode_complete]
    decide

/-- Settles O28: the code says which check failed, and each case of the checks has its own code. -/
theorem errorCodesAndTheirOrder : Obligations.ErrorCodesAndTheirOrder := by
  unfold Obligations.ErrorCodesAndTheirOrder
  intro i s t h
  show (statusEcode t.status = 1 ↔ DimensionFails i s) ∧ (statusEcode t.status = 2 ↔ FormatFails i s) ∧
    (statusEcode t.status = 4 ↔ InputTooLong i s ∧ ¬ DimensionFails i s ∧ ¬ FormatFails i s) ∧
    (statusEcode t.status = 3 → i = .envunpad ∧ ¬ InputTooLong i s ∧ ¬ FormatFails i s) ∧
    (statusEcode t.status).toNat ≤ 4 ∧ (statusErr t.status = true ↔ statusEcode t.status ≠ 0)
  rw [exec_err_iff_ecode h]
  rcases exec_ecode_cases h with ⟨hd, he⟩ | ⟨hf, he⟩ | ⟨hd, hf, hc, he⟩ | ⟨hd, hf, hc, he | ⟨rfl, he⟩⟩
  · simp [he, hd, hd.not_formatFails]
  · have hd : ¬ DimensionFails i s := fun hd => hd.not_formatFails hf
    simp [he, hd, hf]
  · simp [he, hd, hf, hc]
  · simp [he, hd, hf, hc]
  · simp [he, hd, hf, hc]

end Sys2Proof.Machine
end

section
/-! What one step can do, over every turn at once: it keeps the invariant (10_state.md R25, R35), the parameters (R37) and DONE (70_reset_and_hazards.md section 1), and it never faults (20_memory.md R72). -/

namespace Sys2Proof.Machine

/-- A step is the next turn's, the engine's when the outside has none left. -/
theorem step_eq_performTurn (s : State) :
    step s = performTurn (s.turns.headD .engine) { s with turns := s.turns.tail } := by
  cases hts : s.turns with
  | nil =>
    have hs : { s with turns := [] } = s := by rw [← hts]
    rw [step_nil hts, List.headD_nil, List.tail_nil, hs, performTurn_engine]
  | cons turn rest => rw [step_cons hts, List.headD_cons, List.tail_cons]

theorem turns_eq_cons_of_headD {turns : List Turn} {turn : Turn} (h : turns.headD .engine = turn)
    (hne : turn ≠ .engine) : turns = turn :: turns.tail := by
  cases turns with
  | nil => exact absurd h.symm hne
  | cons t rest => exact congrArg (· :: rest) h

/-! ## The invariant -/

/-- What the invariant speaks of. -/
def State.invView (s : State) : Word × Word × Word × Word × Memory × Memory × Memory × Option Instr × Setup :=
  (s.status, s.ow, s.oh, s.olen, s.inA, s.inB, s.out, s.curOp, s.setup)

theorem inv_of_invView {s t : State} (hv : t.invView = s.invView) (h : Inv s) : Inv t := by
  cases s
  cases t
  simp only [State.invView, Prod.mk.injEq] at hv
  obtain ⟨rfl, rfl, rfl, rfl, rfl, rfl, rfl, rfl, rfl⟩ := hv
  exact ⟨h.1, h.2, h.3, h.4, h.5, h.6, h.7, h.8, h.9, h.10⟩

theorem inv_writeReg {s : State} (r : Reg) (v : Word) (h : Inv s) : Inv (s.writeReg r v) :=
  inv_of_invView (by cases r <;> rfl) h

theorem inv_putA {s : State} {a : Nat} (v : Byte) (h : Inv s) (ha : s.holds .inA (a + 1) = true) :
    Inv { s with inA := Memory.put s.inA a v } :=
  { h with
    inA_wf := put_wf a v h.inA_wf
    inA_inside := put_inside h.inA_inside ((holds_inA s (a + 1)).mp ha) }

theorem inv_putB {s : State} {a : Nat} (v : Byte) (h : Inv s) (ha : s.holds .inB (a + 1) = true) :
    Inv { s with inB := Memory.put s.inB a v } :=
  { h with
    inB_wf := put_wf a v h.inB_wf
    inB_inside := put_inside h.inB_inside ((holds_inB s (a + 1)).mp ha) }

theorem inv_resetBlock (s : State) : Inv (resetBlock s) where
  status_legal := rfl
  latched_iff_busy := by simp
  inA_wf := rfl
  inB_wf := rfl
  out_wf := rfl
  inA_inside := by simp
  inB_inside := by simp
  out_inside := by simp
  out_is_result := by simp
  no_result := by simp

theorem inv_issueCommand {s : State} (w : Word) (h : Inv s) : Inv (issueCommand w s) := by
  rcases issueCommand_cases w s with ⟨i, _, he⟩ | ⟨_, _, he⟩ <;> rw [he]
  · exact inv_issue i h
  · exact inv_raiseError _ h

theorem inv_hostAction {x : HostAction} {s t : State} (h : Inv s) (hx : hostAction x s = .next t) : Inv t := by
  rcases hostAction_cases hx with ⟨r, _, _, rfl⟩ | ⟨v, _, _, rfl⟩ | ⟨r, v, _, _, _, rfl⟩ | ⟨b, a, _, _, _, ht⟩ |
      ⟨b, a, v, _, _, ha, ht⟩
  case inl => exact inv_of_invView (s := s) rfl h
  case inr.inl => exact inv_issueCommand v h
  case inr.inr.inl => exact inv_writeReg r v h
  case inr.inr.inr.inl =>
    refine inv_of_invView (s := s) ?_ h
    rcases ht with ht | ht <;> rw [ht] <;> rfl
  case inr.inr.inr.inr =>
    rcases ht with ⟨rfl, rfl⟩ | ⟨rfl, rfl⟩ | ⟨rfl, rfl⟩
    · exact inv_putA _ h ha
    · exact inv_putB _ h ha
    · exact h

theorem inv_engineTurn {s t : State} (h : Inv s) (ht : engineTurn s = .next t) : Inv t := by
  rcases engineTurn_cases ht with ⟨_, rfl⟩ | ⟨_, _, _, he⟩
  · exact h
  · exact inv_exec h he

theorem inv_fusedCommand {w : Word} {s t : State} (h : Inv s) (ht : fusedCommand w s = .next t) : Inv t := by
  obtain ⟨_, ⟨i, _, he⟩ | ⟨_, _, rfl⟩⟩ := fusedCommand_cases ht
  · exact inv_exec (inv_issue i h) he
  · exact inv_raiseError _ h

theorem inv_performTurn {turn : Turn} {s t : State} (h : Inv s) (ht : performTurn turn s = .next t) : Inv t := by
  cases turn with
  | host x => exact inv_hostAction h ht
  | command w => exact inv_fusedCommand h ht
  | engine => exact inv_engineTurn h ht
  | reset =>
    cases ht
    exact inv_resetBlock s

/-- Settles O20: every turn keeps the invariant, and taking the turn off the list does. -/
theorem stepKeepsTheInvariant : Obligations.StepKeepsTheInvariant := by
  unfold Obligations.StepKeepsTheInvariant
  intro s t h ht
  rw [step_eq_performTurn] at ht
  exact inv_performTurn (inv_turns _ h) ht

/-- Settles O19: no register is set, no byte is known, no opcode is latched. -/
theorem resetMeetsTheInvariant : Obligations.ResetMeetsTheInvariant := by
  unfold Obligations.ResetMeetsTheInvariant
  exact inv_of_invView (s := resetBlock State.reset) rfl (inv_resetBlock _)

/-! ## The parameters -/

theorem issueCommand_setup (w : Word) (s : State) : (issueCommand w s).setup = s.setup := by
  rcases issueCommand_cases w s with ⟨i, _, he⟩ | ⟨_, _, he⟩ <;> rw [he]
  · exact issue_setup i s
  · exact raiseError_setup _ s

theorem exec_setup {i : Instr} {s t : State} (h : exec i s = .next t) : t.setup = s.setup := (exec_kept h).1

/-- A host action writes `CMD`, or it leaves STATUS and the parameters as they are. -/
theorem hostAction_issues_or_keeps {x : HostAction} {s t : State} (hx : hostAction x s = .next t) :
    (∃ w, x = .regWrite 0x00 32 w ∧ t = issueCommand w s) ∨ (t.status = s.status ∧ t.setup = s.setup) := by
  rcases hostAction_cases hx with ⟨r, _, _, rfl⟩ | ⟨w, hw, _, rfl⟩ | ⟨r, v, _, _, _, rfl⟩ | ⟨b, a, _, _, _, ht⟩ |
      ⟨b, a, v, _, _, _, ht⟩
  case inl => exact .inr ⟨rfl, rfl⟩
  case inr.inl => exact .inl ⟨w, hw, rfl⟩
  case inr.inr.inl => exact .inr ⟨writeReg_status r v s, writeReg_setup r v s⟩
  case inr.inr.inr.inl => exact .inr (by rcases ht with ht | ht <;> rw [ht] <;> exact ⟨rfl, rfl⟩)
  case inr.inr.inr.inr => exact .inr (by rcases ht with ⟨_, rfl⟩ | ⟨_, rfl⟩ | ⟨_, rfl⟩ <;> exact ⟨rfl, rfl⟩)

theorem hostAction_setup {x : HostAction} {s t : State} (hx : hostAction x s = .next t) : t.setup = s.setup := by
  rcases hostAction_issues_or_keeps hx with ⟨w, _, rfl⟩ | ⟨_, hset⟩
  · exact issueCommand_setup w s
  · exact hset

theorem performTurn_setup {turn : Turn} {s t : State} (ht : performTurn turn s = .next t) : t.setup = s.setup := by
  cases turn with
  | host x => exact hostAction_setup ht
  | command w =>
    obtain ⟨_, ⟨i, _, he⟩ | ⟨_, _, rfl⟩⟩ := fusedCommand_cases ht
    · exact (exec_setup he).trans (issue_setup i s)
    · exact raiseError_setup _ s
  | engine =>
    rcases engineTurn_cases ht with ⟨_, rfl⟩ | ⟨_, _, _, he⟩
    · rfl
    · exact exec_setup he
  | reset =>
    cases ht
    exact resetBlock_setup s

/-- Settles O23: no turn writes the parameters. -/
theorem parametersNeverChange : Obligations.ParametersNeverChange := by
  unfold Obligations.ParametersNeverChange
  intro s t ht
  rw [step_eq_performTurn] at ht
  exact performTurn_setup (s := { s with turns := s.turns.tail }) ht

/-! ## No fault -/

theorem exec_ne_fault (i : Instr) (s : State) (r : Fault) : exec i s ≠ .fault r := by
  obtain ⟨t, ht⟩ := exec_next i s
  rw [ht]
  exact nofun

theorem hostAction_ne_fault (x : HostAction) (s : State) (r : Fault) : hostAction x s ≠ .fault r := by
  cases x with
  | regRead offset width =>
    simp only [hostAction, hostRegRead]
    split
    · exact nofun
    · split <;> exact nofun
  | regWrite offset width v =>
    simp only [hostAction, hostRegWrite]
    split
    · exact nofun
    · split
      · exact nofun
      · split <;> exact nofun
  | bufRead b a =>
    simp only [hostAction, hostBufRead]
    split
    · exact nofun
    · split
      · exact nofun
      · split <;> exact nofun
  | bufWrite b a v =>
    simp only [hostAction, hostBufWrite]
    split
    · exact nofun
    · split
      · exact nofun
      · cases b <;> exact nofun

theorem engineTurn_ne_fault (s : State) (r : Fault) : engineTurn s ≠ .fault r := by
  unfold engineTurn
  split
  · split
    · exact exec_ne_fault _ s r
    · exact nofun
  · exact nofun

theorem fusedCommand_ne_fault (w : Word) (s : State) (r : Fault) : fusedCommand w s ≠ .fault r := by
  unfold fusedCommand
  split
  · exact nofun
  · split
    · exact exec_ne_fault _ _ r
    · exact nofun

/-- Settles O24: a command always completes, and no other turn can fault. -/
theorem noStepFaults : Obligations.NoStepFaults := by
  unfold Obligations.NoStepFaults
  intro s r
  rw [step_eq_performTurn]
  cases s.turns.headD .engine with
  | host x => exact hostAction_ne_fault x _ r
  | command w => exact fusedCommand_ne_fault w _ r
  | engine => exact engineTurn_ne_fault _ r
  | reset => exact nofun

/-! ## STATUS -/

theorem legalStatus_iff_mem (st : Word) :
    legalStatus st = true ↔ st ∈ [0x00#32, 0x01#32, 0x02#32, 0x16#32, 0x26#32, 0x36#32, 0x46#32, 0x56#32] :=
  List.contains_iff_mem

/-- Settles O21: each of the eight legal values has fields that agree. -/
theorem statusFieldsAgree : Obligations.StatusFieldsAgree := by
  unfold Obligations.StatusFieldsAgree
  intro s h
  have hmem := (legalStatus_iff_mem s.status).mp h.status_legal
  generalize s.status = st at hmem
  fin_cases hmem <;> decide

theorem done_raiseError (e : ErrorCode) (s : State) : statusDone (raiseError e s).status = true := by
  rw [raiseError_status]
  cases e <;> decide

/-- A host action that clears DONE issues a command. -/
theorem hostAction_clears_done {x : HostAction} {s t : State} (hx : hostAction x s = .next t)
    (hs : statusDone s.status = true) (ht : statusDone t.status = false) :
    ∃ w i, decode w = .ok i ∧ x = .regWrite 0x00 32 w := by
  rcases hostAction_issues_or_keeps hx with ⟨w, hw, rfl⟩ | ⟨hst, _⟩
  · rcases issueCommand_cases w s with ⟨i, hi, _⟩ | ⟨_, _, he⟩
    · exact ⟨w, i, hi, hw⟩
    · rw [he, done_raiseError] at ht
      cases ht
  · rw [hst, hs] at ht
    cases ht

/-- A turn that clears DONE is the reset input or the host's issue of a command. -/
theorem performTurn_clears_done {turn : Turn} {s t : State} (h : performTurn turn s = .next t)
    (hs : statusDone s.status = true) (ht : statusDone t.status = false) :
    turn = .reset ∨ ∃ w i, decode w = .ok i ∧ turn = .host (.regWrite 0x00 32 w) := by
  have completed {i : Instr} {u : State} (he : exec i u = .next t) : False := by
    rw [(exec_done he).2.1] at ht
    cases ht
  cases turn with
  | host x =>
    obtain ⟨w, i, hi, rfl⟩ := hostAction_clears_done h hs ht
    exact .inr ⟨w, i, hi, rfl⟩
  | command w =>
    obtain ⟨_, ⟨_, _, he⟩ | ⟨_, _, rfl⟩⟩ := fusedCommand_cases h
    · exact (completed he).elim
    · rw [done_raiseError] at ht
      cases ht
  | engine =>
    rcases engineTurn_cases h with ⟨_, rfl⟩ | ⟨_, _, _, he⟩
    · rw [hs] at ht
      cases ht
    · exact (completed he).elim
  | reset => exact .inl rfl

/-- Settles O10: a completion and an error set DONE, and every other turn but these two leaves STATUS as it is. -/
theorem doneIsClearedOnlyByIssueOrReset : Obligations.DoneIsClearedOnlyByIssueOrReset := by
  unfold Obligations.DoneIsClearedOnlyByIssueOrReset
  intro s t _ h hs ht
  rw [step_eq_performTurn] at h
  rcases performTurn_clears_done h hs ht with hturn | ⟨w, i, hi, hturn⟩
  · exact .inl ⟨_, turns_eq_cons_of_headD hturn nofun⟩
  · exact .inr ⟨w, _, i, hi, turns_eq_cons_of_headD hturn nofun⟩

end Sys2Proof.Machine
end

section
/-! The issue of a command, its completion and the busy block between them (30_encoding.md R84 to R86, R92; 20_memory.md R58). -/

namespace Sys2Proof.Machine

/-! ## Issue and completion -/

/-- The engine's turn completes the latched command, when it comes and when no other turn is left. -/
theorem step_engine {s : State} {i : Instr} (hb : s.busy = true) (hi : s.curOp = some i)
    (hturn : s.turns.headD .engine = .engine) : step s = exec i { s with turns := s.turns.tail } := by
  rw [step_eq_performTurn, hturn, performTurn_engine]
  exact engineTurn_busy hb hi

/-- Settles O4: with no turn left there is none to take off. -/
theorem stepCompletesTheLatchedCommand : Obligations.StepCompletesTheLatchedCommand := by
  unfold Obligations.StepCompletesTheLatchedCommand
  intro s i hb hi
  constructor
  · intro hts
    rw [step_nil hts, engineTurn_busy hb hi]
  · intro rest hts
    rw [step_engine hb hi (by rw [hts]; rfl), hts, List.tail_cons]

/-- A busy block has a command latched (10_state.md R35). -/
theorem exists_latched {s : State} (h : Inv s) (hb : s.busy = true) : ∃ i, s.curOp = some i :=
  Option.isSome_iff_exists.mp (h.latched_iff_busy.trans hb)

/-- Settles O8: the latched command completes, as every command does. -/
theorem engineTurnCompletesTheCommand : Obligations.EngineTurnCompletesTheCommand := by
  unfold Obligations.EngineTurnCompletesTheCommand
  intro s h hb hts
  obtain ⟨i, hi⟩ := exists_latched h hb
  obtain ⟨t, ht⟩ := exec_next i { s with turns := s.turns.tail }
  have hturn : s.turns.headD .engine = .engine := by
    rcases hts with hts | ⟨rest, hts⟩ <;> rw [hts] <;> rfl
  exact ⟨t, (step_engine hb hi hturn).trans ht, exec_done ht⟩

theorem fusedCommand_legal {w : Word} {i : Instr} {s : State} (hb : s.busy = false) (hi : decode w = .ok i) :
    fusedCommand w s = exec i (issue i s) := by
  simp [fusedCommand, hb, hi]

theorem fusedCommand_illegal {w : Word} {r : IllegalWord} {s : State} (hb : s.busy = false)
    (hr : decode w = .error r) : fusedCommand w s = .next (raiseError .illegalCommand s) := by
  simp [fusedCommand, hb, hr]

theorem fusedCommand_busy {s : State} (w : Word) (hb : s.busy = true) :
    fusedCommand w s = .refused .accessWhileBusy := by
  simp [fusedCommand, hb]

theorem issueCommand_legal {w : Word} {i : Instr} (s : State) (hi : decode w = .ok i) :
    issueCommand w s = issue i s := by
  simp [issueCommand, hi]

theorem issueCommand_illegal {w : Word} {r : IllegalWord} (s : State) (hr : decode w = .error r) :
    issueCommand w s = raiseError .illegalCommand s := by
  simp [issueCommand, hr]

/-- Settles O3: the fused turn of a legal word. -/
theorem stepRunsTheDecodedCommand : Obligations.StepRunsTheDecodedCommand := by
  unfold Obligations.StepRunsTheDecodedCommand
  intro s w rest i hts hb hi
  rw [step_cons hts, performTurn_command]
  exact fusedCommand_legal hb hi

/-- The host's write of a word to `CMD` of an idle block, as a step. -/
theorem step_writeCmd {s : State} {w : Word} {rest : List Turn} (hts : s.turns = .host (.regWrite 0x00 32 w) :: rest)
    (hb : s.busy = false) : step s = .next (issueCommand w { s with turns := rest }) :=
  (step_host hts).trans (hostAction_writeCmd w hb)

/-- Settles O6: the write issues the command. -/
theorem issueLatchesTheCommand : Obligations.IssueLatchesTheCommand := by
  unfold Obligations.IssueLatchesTheCommand
  intro s w rest i hts hb hi
  rw [step_writeCmd hts hb, issueCommand_legal _ hi]
  rfl

theorem ne_encode_of_ne_legal {w : Word} (h1 : w ≠ 0x00000001#32) (h2 : w ≠ 0x00000002#32) (h3 : w ≠ 0x00000003#32)
    (h4 : w ≠ 0x00000004#32) (i : Instr) : w ≠ encode i := by
  cases i
  exacts [h1, h2, h3, h4]

/-- In a block with no opcode latched the report of an illegal word changes no more than its STATUS and results. -/
theorem raiseError_illegalCommand_of_idle {s : State} (hop : s.curOp = none) :
    raiseError .illegalCommand s = { s with status := 0x00000056#32, ow := 0, oh := 0, olen := 0, out := [] } := by
  obtain ⟨_, _, _, _, hst⟩ := errorStatus_values
  rw [raiseError_eq_afterError, hst, afterError, ← hop]
  rfl

/-- Settles O7: either turn raises IllegalCommand, and no opcode was latched before. -/
theorem illegalWordIsReported : Obligations.IllegalWordIsReported := by
  unfold Obligations.IllegalWordIsReported
  intro s w rest hb hop h1 h2 h3 h4 hts
  obtain ⟨r, hr⟩ := decode_illegal (ne_encode_of_ne_legal h1 h2 h3 h4)
  have hraise := raiseError_illegalCommand_of_idle (s := { s with turns := rest }) hop
  rcases hts with hts | hts
  · rw [step_writeCmd hts hb, issueCommand_illegal _ hr, hraise]
  · rw [step_cons hts, performTurn_command, fusedCommand_illegal (s := { s with turns := rest }) hb hr, hraise]

/-- The host's write to `CMD` and the engine's turn after it: a busy block, a legal word, an illegal one. -/
theorem run_two_writeCmd_engine {s : State} {w : Word} {rest : List Turn}
    (hts : s.turns = .host (.regWrite 0x00 32 w) :: .engine :: rest) :
    core.run 2 s = fusedCommand w { s with turns := rest } := by
  cases hb : s.busy with
  | true =>
    have hwrite := hostAction_regWrite_busy (s := { s with turns := .engine :: rest }) .cmd w hb
    exact (run_succ_of_refused ((step_host hts).trans hwrite)).trans
      (fusedCommand_busy (s := { s with turns := rest }) w hb).symm
  | false =>
    refine (run_succ_of_next (step_writeCmd hts hb)).trans ((run_one _).trans ?_)
    cases hd : decode w with
    | ok i =>
      rw [issueCommand_legal _ hd, step_engine (busy_issue ..) (issue_curOp ..) rfl]
      exact (fusedCommand_legal (s := { s with turns := rest }) hb hd).symm
    | error r =>
      rw [issueCommand_illegal _ hd, step_eq_performTurn]
      exact (engineTurn_idle (busy_raiseError _ { s with turns := rest })).trans
        (fusedCommand_illegal (s := { s with turns := rest }) hb hd).symm

/-- Settles O5: both sides are the fused command on the state without the pending turns. -/
theorem fusedCommandIsIssueThenCompletion : Obligations.FusedCommandIsIssueThenCompletion := by
  unfold Obligations.FusedCommandIsIssueThenCompletion
  intro s w rest
  have hfused := step_cons (s := { s with turns := .command w :: rest }) rfl
  have hwritten :=
    run_two_writeCmd_engine (s := { s with turns := .host (.regWrite 0x00 32 w) :: .engine :: rest }) rfl
  exact hfused.trans hwritten.symm

/-! ## The busy block -/

/-- A busy block refuses every host action but the read of STATUS (20_memory.md R58). -/
theorem hostAction_refused_of_busy {x : HostAction} {s : State} (hb : s.busy = true) (hx : x ≠ .regRead 0x04 32) :
    ∃ r, hostAction x s = .refused r := by
  cases x with
  | regRead offset width =>
    cases hr : regAt offset width with
    | error e => exact ⟨e, hostAction_regRead_odd hr⟩
    | ok r =>
      obtain ⟨rfl, rfl⟩ := eq_of_regAt hr
      exact ⟨_, hostAction_regRead_busy hb (by rintro rfl; exact hx rfl)⟩
  | regWrite offset width v =>
    cases hr : regAt offset width with
    | error e => exact ⟨e, hostAction_regWrite_odd v hr⟩
    | ok r =>
      obtain ⟨rfl, rfl⟩ := eq_of_regAt hr
      exact ⟨_, hostAction_regWrite_busy r v hb⟩
  | bufRead b a => exact hostAction_bufRead_refused (.inl hb)
  | bufWrite b a v => exact hostAction_bufWrite_refused v (.inl hb)

/-- Settles O17: STATUS of a busy block is 1, and every other access meets the busy test or is odd. -/
theorem busyBlockRefusesAllButTheStatusRead : Obligations.BusyBlockRefusesAllButTheStatusRead := by
  unfold Obligations.BusyBlockRefusesAllButTheStatusRead
  intro s rest h hb
  refine ⟨fun hts => ?_, fun x hts hx => ?_, fun w hts => ?_⟩
  · rw [step_rdStatus s rest hts, busy_status h.status_legal hb]
    rfl
  · rw [step_host hts]
    exact hostAction_refused_of_busy hb hx
  · rw [step_cons hts, performTurn_command]
    exact fusedCommand_busy w hb

end Sys2Proof.Machine
end

section
/-! What every command leaves behind: its frame (10_state.md R28, R33), the length of its result (20_memory.md R64), its error entry (60_exceptions.md R178), its draw (41_cipher_envelope.md R141). -/

namespace Sys2Proof.Machine

/-- Settles O25: the frame of a command, which holds the input buffers. -/
theorem commandsChangeOnlyTheResults : Obligations.CommandsChangeOnlyTheResults := by
  unfold Obligations.CommandsChangeOnlyTheResults
  intro i s t h
  exact ⟨exec_frame h, fun a => congrArg (Memory.get? · a) (buffer_exec h .inA nofun),
    fun a => congrArg (Memory.get? · a) (buffer_exec h .inB nofun)⟩

/-- A length that fits OUT fits a register (00_scope.md R7). -/
theorem toNat_ofNat_of_fits_out {s : State} {n : Nat} (h : n ≤ s.setup.cap.val + 16) :
    (BitVec.ofNat 32 n).toNat = n := by
  have hcap := cap_lt s
  rw [BitVec.toNat_ofNat, Nat.mod_eq_of_lt (by omega)]

/-- Settles O26: an error leaves no byte and length 0, a result its bytes from offset 0 and their number. -/
theorem everyCommandCompletesInsideItsBuffers : Obligations.EveryCommandCompletesInsideItsBuffers := by
  unfold Obligations.EveryCommandCompletesInsideItsBuffers
  intro i s
  rcases exec_cases i s with ⟨e, _, he⟩ | ⟨ow, oh, bytes, s', he, hlen, _⟩
  · obtain ⟨hbusy, hdone, _⟩ := exec_done he
    exact ⟨_, he, hbusy, hdone, rfl, Nat.zero_le _⟩
  · obtain ⟨hbusy, hdone, _⟩ := exec_done he
    refine ⟨_, he, hbusy, hdone, ?_⟩
    rw [complete_out, complete_olen, ofBytes_offsets, toNat_ofNat_of_fits_out hlen]
    exact ⟨by simp, hlen⟩

/-! ## Errors -/

/-- The codes of the errors that a command can end with (60_exceptions.md R170). -/
theorem code_bounds {e : ErrorCode} (he : e ≠ .illegalCommand) : 1 ≤ e.code.toNat ∧ e.code.toNat ≤ 4 := by
  cases e with
  | illegalCommand => exact absurd rfl he
  | dimension => decide
  | format => decide
  | padding => decide
  | capacity => decide

theorem errorStatus_eq_code (e : ErrorCode) :
    errorStatus e = 0x00000006#32 ||| (BitVec.ofNat 32 e.code.toNat <<< 4) := by cases e <;> rfl

/-- Settles O27: only `raiseError` sets ERR, and it leaves the state `afterError` of its code. -/
theorem errorLeavesOnlyItsCode : Obligations.ErrorLeavesOnlyItsCode := by
  unfold Obligations.ErrorLeavesOnlyItsCode
  intro i s t h herr
  rcases exec_cases i s with ⟨e, hne, he⟩ | ⟨ow, oh, bytes, s', he, _⟩
  · obtain rfl : raiseError e s = t := by simpa [he] using h
    obtain ⟨hlow, hhigh⟩ := code_bounds hne
    exact ⟨e.code.toNat, hlow, hhigh, by rw [raiseError_eq_afterError, errorStatus_eq_code]⟩
  · obtain rfl : complete ow oh bytes s' = t := by simpa [he] using h
    rw [err_complete] at herr
    cases herr

/-! ## The draw -/

@[simp] theorem knownByte_ofBytes (bytes : List Byte) (a : Nat) :
    knownByte (Memory.ofBytes 0 bytes) a = bytes.getD a 0 := by
  rw [knownByte, get?_ofBytes_zero, List.getD_eq_getElem?_getD]

/-- The blocks of a buffer that holds a sequence of blocks. -/
theorem blockOf_knownByte_flatten (bs : List Block) {j : Nat} (hj : j < bs.length) :
    blockOf (knownByte (Memory.ofBytes 0 (flatten bs))) j = bs[j] := by
  rw [← blockOf_flatten bs j hj]
  exact blockOf_congr fun a _ _ => knownByte_ofBytes _ a

/-- The blocks of a blob: the IV, then the ciphertext (41_cipher_envelope.md R134). -/
def blobBlocks (c : Cipher) (b : List Byte) (k : Key) (iv : Block) : List Block :=
  iv :: cbcEnc (bcEnc c k) iv (toBlocks (pad b))

theorem envelopeEnc_eq_flatten (c : Cipher) (b : List Byte) (k : Key) (iv : Block) :
    envelopeEnc c b k iv = flatten (blobBlocks c b k iv) := rfl

/-- The first block of a blob is its IV. -/
theorem blockOf_envelopeEnc_zero (c : Cipher) (b : List Byte) (k : Key) (iv : Block) :
    blockOf (knownByte (Memory.ofBytes 0 (envelopeEnc c b k iv))) 0 = iv :=
  blockOf_knownByte_flatten (blobBlocks c b k iv) (Nat.succ_pos _)

theorem nextIv_of_cons {s : State} {iv : Block} {more : List Block} (h : s.ivAnswers = iv :: more) :
    s.nextIv = iv := by
  rw [State.nextIv, h]

theorem nextIv_of_nil {s : State} (h : s.ivAnswers = []) : s.nextIv = Config.drawIv s.ivDraws := by
  rw [State.nextIv, h]

/-- ENVPAD within capacity takes one draw, which stands in the first block of OUT. -/
theorem exec_envpad_draws {s t : State} (hc : s.alen.toNat ≤ s.setup.cap.val) (h : exec .envpad s = .next t) :
    t.ivAnswers = s.afterIvDraw.ivAnswers ∧ t.ivDraws = s.afterIvDraw.ivDraws ∧
      blockOf (knownByte t.out) 0 = s.nextIv := by
  rw [exec_envpad_result hc] at h
  cases h
  exact ⟨rfl, rfl, blockOf_envelopeEnc_zero ..⟩

/-- Every other completion takes none. -/
theorem exec_draws_nothing {i : Instr} {s t : State} (hn : ¬ (i = .envpad ∧ s.alen.toNat ≤ s.setup.cap.val))
    (h : exec i s = .next t) : t.ivAnswers = s.ivAnswers ∧ t.ivDraws = s.ivDraws := by
  rcases exec_cases i s with ⟨e, _, he⟩ | ⟨ow, oh, bytes, s', he, _, rfl | ⟨hi, hc, _⟩⟩
  · rw [he] at h
    cases h
    exact ⟨rfl, rfl⟩
  · rw [he] at h
    cases h
    exact ⟨rfl, rfl⟩
  · exact absurd ⟨hi, hc⟩ hn

/-- Settles O30: whether an answer is listed or not, the draw is `afterIvDraw`'s or there is none. -/
theorem onlyEnvpadDrawsAnIv : Obligations.OnlyEnvpadDrawsAnIv := by
  unfold Obligations.OnlyEnvpadDrawsAnIv
  constructor
  · intro i s t iv more h hiv
    by_cases hd : i = .envpad ∧ s.alen.toNat ≤ s.setup.cap.val
    · obtain ⟨rfl, hc⟩ := hd
      obtain ⟨hanswers, hdraws, hblock⟩ := exec_envpad_draws hc h
      rw [afterIvDraw_ivAnswers, hiv] at hanswers
      rw [afterIvDraw_ivDraws, hiv] at hdraws
      rw [nextIv_of_cons hiv] at hblock
      exact ⟨hdraws, fun _ => ⟨hanswers, hblock⟩, fun hn => absurd ⟨rfl, hc⟩ hn⟩
    · obtain ⟨hanswers, hdraws⟩ := exec_draws_nothing hd h
      exact ⟨hdraws, fun hc => absurd hc hd, fun _ => hanswers⟩
  · intro i s t h hiv
    by_cases hd : i = .envpad ∧ s.alen.toNat ≤ s.setup.cap.val
    · obtain ⟨rfl, hc⟩ := hd
      obtain ⟨hanswers, hdraws, hblock⟩ := exec_envpad_draws hc h
      rw [afterIvDraw_ivAnswers, hiv] at hanswers
      rw [afterIvDraw_ivDraws, if_pos hiv] at hdraws
      rw [nextIv_of_nil hiv] at hblock
      exact ⟨hanswers, fun _ => ⟨hdraws, hblock⟩, fun hn => absurd ⟨rfl, hc⟩ hn⟩
    · obtain ⟨hanswers, hdraws⟩ := exec_draws_nothing hd h
      exact ⟨hanswers.trans hiv, fun hc => absurd hc hd, fun _ => hdraws⟩

end Sys2Proof.Machine
end

section
/-! MERGE and UNMERGE byte by byte (40_pixel_codec.md R110, R115), the offsets of an image (20_memory.md R60), and what UNMERGE finds in a merged image (R116, R118). -/

namespace Sys2Proof.Machine

/-! ## Offsets -/

/-- The pixel's place in row order and the channel are the quotient and the rest of the offset by 3. -/
theorem off_div_mod (w x y : Nat) {c : Nat} (hc : c < 3) : off w x y c / 3 = y * w + x ∧ off w x y c % 3 = c := by
  unfold off
  omega

theorem row_div_mod {w x : Nat} (y : Nat) (hx : x < w) : (y * w + x) / w = y ∧ (y * w + x) % w = x := by
  have hw : 0 < w := Nat.zero_lt_of_lt hx
  constructor
  · rw [Nat.add_comm, Nat.add_mul_div_right _ _ hw, Nat.div_eq_of_lt hx, Nat.zero_add]
  · rw [Nat.add_comm, Nat.add_mul_mod_self_right, Nat.mod_eq_of_lt hx]

theorem off_injective {w x y c x' y' c' : Nat} (hx : x < w) (hc : c < 3) (hx' : x' < w) (hc' : c' < 3)
    (h : off w x y c = off w x' y' c') : x = x' ∧ y = y' ∧ c = c' := by
  obtain ⟨hq, hr⟩ := off_div_mod w x y hc
  obtain ⟨hq', hr'⟩ := off_div_mod w x' y' hc'
  obtain ⟨hy, hmod⟩ := row_div_mod y hx
  obtain ⟨hy', hmod'⟩ := row_div_mod y' hx'
  have hrow : y * w + x = y' * w + x' := by rw [← hq, ← hq', h]
  exact ⟨by rw [← hmod, ← hmod', hrow], by rw [← hy, ← hy', hrow], by rw [← hr, ← hr', h]⟩

theorem exists_off {w h a : Nat} (ha : a < imageBytes w h) :
    ∃ x y c, x < w ∧ y < h ∧ c < 3 ∧ off w x y c = a := by
  have hpix : a / 3 < w * h := by
    unfold imageBytes at ha
    rw [Nat.mul_assoc] at ha
    omega
  have hw : 0 < w := Nat.pos_of_ne_zero (by rintro rfl; omega)
  refine ⟨a / 3 % w, a / 3 / w, a % 3, Nat.mod_lt _ hw, Nat.div_lt_of_lt_mul hpix, Nat.mod_lt _ (by decide), ?_⟩
  rw [off, Nat.mul_comm (a / 3 / w) w, Nat.div_add_mod, Nat.div_add_mod]

/-- Settles O37: an offset is taken apart by division by 3 and by the width. -/
theorem pixelOffsetsFillTheImage : Obligations.PixelOffsetsFillTheImage := by
  unfold Obligations.PixelOffsetsFillTheImage
  exact fun w h => ⟨fun x y c hx hy hc => off_lt hx hy hc,
    fun x y c x' y' c' hx _ hc hx' _ hc' heq => off_injective hx hc hx' hc' heq, fun a ha => exists_off ha⟩

/-! ## The images in the buffers -/

/-- An image delivered to OUT, at each pixel (R60). -/
theorem get?_ofBytes_layout (p : Image) {x y c : Nat} (hx : x < p.w) (hy : y < p.h) (hc : c < 3) :
    Memory.get? (Memory.ofBytes 0 (layout p)) (off p.w x y c) = some (p.px x y c) := by
  rw [get?_ofBytes_zero, getElem?_layout p hx hy hc]

/-- No byte is known beyond it. -/
theorem get?_ofBytes_layout_beyond (p : Image) {a : Nat} (ha : imageBytes p.w p.h ≤ a) :
    Memory.get? (Memory.ofBytes 0 (layout p)) a = none := by
  rw [get?_ofBytes_zero, List.getElem?_eq_none (by rwa [length_layout])]

@[simp] theorem imgA_w (s : State) : s.imgA.w = s.aw.toNat := rfl

@[simp] theorem imgA_h (s : State) : s.imgA.h = s.ah.toNat := rfl

theorem mergeImg_px (s : State) (x y c : Nat) :
    (mergeImg s.imgA s.imgB).px x y c = mergeByte (s.byteAt .inA (off s.aw.toNat x y c)) (payloadByte s x y c) := rfl

/-! ## MERGE -/

/-- The state after a MERGE without error. -/
abbrev merged (s : State) : State := complete s.aw.toNat s.ah.toNat (layout (mergeImg s.imgA s.imgB)) s

theorem merged_olen {s : State} (hc : imageBytes s.aw.toNat s.ah.toNat ≤ s.setup.cap.val) :
    (merged s).olen.toNat = imageBytes s.aw.toNat s.ah.toNat := by
  have hlen : (layout (mergeImg s.imgA s.imgB)).length = imageBytes s.aw.toNat s.ah.toNat := length_layout _
  rw [complete_olen, hlen, toNat_ofNat_of_fits_out (s := s) (by omega)]

theorem get?_merged_out (s : State) {x y c : Nat} (hx : x < s.aw.toNat) (hy : y < s.ah.toNat) (hc : c < 3) :
    Memory.get? (merged s).out (off s.aw.toNat x y c) =
      some (mergeByte (s.byteAt .inA (off s.aw.toNat x y c)) (payloadByte s x y c)) :=
  get?_ofBytes_layout (mergeImg s.imgA s.imgB) hx hy hc

/-- Settles O32: each case of the checks has its outcome, and the merged image stands in OUT byte by byte. -/
theorem mergeCommand : Obligations.MergeCommand := by
  unfold Obligations.MergeCommand
  refine ⟨rfl, fun s => ⟨exec_merge_dimension, exec_merge_capacity, fun hw hh hc => ?_⟩⟩
  refine ⟨merged s, exec_merge_result hw hh hc, ?_, merged_olen hc, fun x y c => get?_merged_out s,
    fun a => get?_ofBytes_layout_beyond (mergeImg s.imgA s.imgB)⟩
  simp only [merged, complete, BitVec.ofNat_toNat, BitVec.setWidth_eq]
  rfl

/-- A MERGE without error passed its checks. -/
theorem exec_merge_noError {s t : State} (h : exec .merge s = .next t) (herr : statusErr t.status = false) :
    s.bw.toNat ≤ s.aw.toNat ∧ s.bh.toNat ≤ s.ah.toNat ∧ imageBytes s.aw.toNat s.ah.toNat ≤ s.setup.cap.val ∧
      t = merged s := by
  have raised {e : ErrorCode} (he : exec .merge s = .next (raiseError e s)) : False := by
    rw [he] at h
    cases h
    rw [err_raise] at herr
    cases herr
  by_cases hd : s.aw.toNat < s.bw.toNat ∨ s.ah.toNat < s.bh.toNat
  · exact (raised (exec_merge_dimension hd)).elim
  obtain ⟨hw, hh⟩ : s.bw.toNat ≤ s.aw.toNat ∧ s.bh.toNat ≤ s.ah.toNat := by omega
  rcases Nat.lt_or_ge s.setup.cap.val (imageBytes s.aw.toNat s.ah.toNat) with hc | hc
  · exact (raised (exec_merge_capacity hw hh hc)).elim
  · rw [exec_merge_result hw hh hc] at h
    cases h
    exact ⟨hw, hh, hc, rfl⟩

/-! ## The nibbles of a merged byte -/

@[simp] theorem upperNibble_append (hi lo : BitVec 4) : upperNibble (hi ++ lo) = hi :=
  BitVec.extractLsb'_append_eq_left

theorem upperNibble_eq_iff (b b' : Byte) : upperNibble b = upperNibble b' ↔ b &&& 0xF0#8 = b' &&& 0xF0#8 := by
  rw [and_0xF0_eq_append, and_0xF0_eq_append]
  exact ⟨fun h => by rw [h], fun h => by simpa using congrArg upperNibble h⟩

theorem mergeByte_and_0xF0 (cb pb : Byte) : mergeByte cb pb &&& 0xF0#8 = cb &&& 0xF0#8 := by
  rw [← upperNibble_eq_iff, mergeByte_eq_append, upperNibble_append]

theorem toNat_and_0x0F (b : Byte) : (b &&& 0x0F#8).toNat = b.toNat % 16 := by
  rw [BitVec.toNat_and]
  exact Nat.and_two_pow_sub_one_eq_mod b.toNat 4

theorem toNat_shiftRight_four (b : Byte) : (b >>> 4).toNat = b.toNat / 16 := by
  rw [BitVec.toNat_ushiftRight, Nat.shiftRight_eq_div_pow]

theorem mergeByte_and_0x0F (cb pb : Byte) : mergeByte cb pb &&& 0x0F#8 = pb >>> 4 := by
  apply BitVec.eq_of_toNat_eq
  rw [toNat_and_0x0F, toNat_mergeByte, toNat_shiftRight_four]
  omega

/-- A merged byte depends on upper nibbles only (R111 (d)). -/
theorem mergeByte_congr {cb cb' pb pb' : Byte} (hc : cb &&& 0xF0#8 = cb' &&& 0xF0#8)
    (hp : pb &&& 0xF0#8 = pb' &&& 0xF0#8) : mergeByte cb pb = mergeByte cb' pb' := by
  rw [mergeByte_eq_append, mergeByte_eq_append, (upperNibble_eq_iff cb cb').mpr hc, (upperNibble_eq_iff pb pb').mpr hp]

theorem payloadByte_inside {s : State} {x y : Nat} (c : Nat) (h : x < s.bw.toNat ∧ y < s.bh.toNat) :
    payloadByte s x y c = s.byteAt .inB (3 * (y * s.bw.toNat + x) + c) := if_pos h

theorem payloadByte_outside {s : State} {x y : Nat} (c : Nat) (h : ¬ (x < s.bw.toNat ∧ y < s.bh.toNat)) :
    payloadByte s x y c = 0 := if_neg h

theorem payloadByte_upper_congr {s s' : State} (hw : s.bw = s'.bw) (hh : s.bh = s'.bh)
    (hB : ∀ a, s.byteAt .inB a &&& 0xF0#8 = s'.byteAt .inB a &&& 0xF0#8) (x y c : Nat) :
    payloadByte s x y c &&& 0xF0#8 = payloadByte s' x y c &&& 0xF0#8 := by
  unfold payloadByte
  rw [← hw, ← hh]
  split
  · exact hB _
  · rfl

/-- States of the same sizes whose merged images are the same run alike. -/
theorem merge_runAlike_of_samePixels {s s' : State} (hset : s.setup = s'.setup) (haw : s.aw = s'.aw)
    (hah : s.ah = s'.ah) (hbw : s.bw = s'.bw) (hbh : s.bh = s'.bh)
    (hpx : SamePixels (mergeImg s.imgA s.imgB) (mergeImg s'.imgA s'.imgB)) : RunAlike .merge s s' := by
  by_cases hd : s.aw.toNat < s.bw.toNat ∨ s.ah.toNat < s.bh.toNat
  · exact runAlike_raiseError (exec_merge_dimension hd)
      (exec_merge_dimension (by rwa [← haw, ← hah, ← hbw, ← hbh]))
  obtain ⟨hw, hh⟩ : s.bw.toNat ≤ s.aw.toNat ∧ s.bh.toNat ≤ s.ah.toNat := by omega
  have hw' : s'.bw.toNat ≤ s'.aw.toNat := by rwa [← haw, ← hbw]
  have hh' : s'.bh.toNat ≤ s'.ah.toNat := by rwa [← hah, ← hbh]
  rcases Nat.lt_or_ge s.setup.cap.val (imageBytes s.aw.toNat s.ah.toNat) with hc | hc
  · exact runAlike_raiseError (exec_merge_capacity hw hh hc)
      (exec_merge_capacity hw' hh' (by rwa [← hset, ← haw, ← hah]))
  · have he' := exec_merge_result hw' hh' (by rwa [← hset, ← haw, ← hah])
    rw [← haw, ← hah, ← hpx.layout_eq] at he'
    exact runAlike_complete (exec_merge_result hw hh hc) he'

/-- Settles O34: the merged byte's two nibbles, and that `mergeByte` reads upper nibbles only. -/
theorem mergeKeepsUpperNibbles : Obligations.MergeKeepsUpperNibbles := by
  unfold Obligations.MergeKeepsUpperNibbles
  constructor
  · intro s t x y c h herr hx hy hc
    obtain ⟨_, _, _, rfl⟩ := exec_merge_noError h herr
    have hbyte : knownByte (merged s).out (3 * (y * s.aw.toNat + x) + c) =
        mergeByte (s.byteAt .inA (off s.aw.toNat x y c)) (payloadByte s x y c) :=
      congrArg (Option.getD · 0) (get?_merged_out s hx hy hc)
    rw [hbyte, mergeByte_and_0xF0, mergeByte_and_0x0F]
    refine ⟨by simp, by simp, rfl, fun hin => ?_, fun hout => ?_⟩
    · rw [payloadByte_inside c hin]
    · rw [payloadByte_outside c hout]
      rfl
  · intro s s' t t' hset haw hah hbw hbh hA hB ht ht'
    have hpx : SamePixels (mergeImg s.imgA s.imgB) (mergeImg s'.imgA s'.imgB) := by
      refine ⟨congrArg BitVec.toNat haw, congrArg BitVec.toNat hah, fun x y c _ _ _ => ?_⟩
      rw [mergeImg_px, mergeImg_px, ← haw]
      exact mergeByte_congr (hA _) (payloadByte_upper_congr hbw hbh hB x y c)
    obtain ⟨u, u', hu, hu', hres⟩ := merge_runAlike_of_samePixels hset haw hah hbw hbh hpx
    rw [hu] at ht
    rw [hu'] at ht'
    cases ht
    cases ht'
    exact hres

/-! ## UNMERGE -/

/-- The state after an UNMERGE without error. -/
abbrev unmerged (s : State) : State :=
  complete (extent s.imgA).1 (extent s.imgA).2 (layout (unmergeImg s.imgA)) s

/-- The result registers hold the extent, which is no larger than the image. -/
theorem unmerged_size (s : State) :
    (unmerged s).ow.toNat = (extent s.imgA).1 ∧ (unmerged s).oh.toNat = (extent s.imgA).2 := by
  obtain ⟨hw, hh⟩ := extent_le s.imgA
  rw [imgA_w] at hw
  rw [imgA_h] at hh
  have := s.aw.isLt
  have := s.ah.isLt
  rw [complete_ow, complete_oh, BitVec.toNat_ofNat, BitVec.toNat_ofNat, Nat.mod_eq_of_lt (by omega),
    Nat.mod_eq_of_lt (by omega)]
  exact ⟨rfl, rfl⟩

theorem unmerged_olen {s : State} (hc : imageBytes s.aw.toNat s.ah.toNat ≤ s.setup.cap.val) :
    (unmerged s).olen.toNat = imageBytes (extent s.imgA).1 (extent s.imgA).2 := by
  obtain ⟨hw, hh⟩ := extent_le s.imgA
  have hle : imageBytes (extent s.imgA).1 (extent s.imgA).2 ≤ s.setup.cap.val + 16 :=
    (imageBytes_mono hw hh).trans (hc.trans (Nat.le_add_right _ _))
  have hlen : (layout (unmergeImg s.imgA)).length = imageBytes (extent s.imgA).1 (extent s.imgA).2 := length_layout _
  rw [complete_olen, hlen, toNat_ofNat_of_fits_out hle]

theorem get?_unmerged_out (s : State) {x y c : Nat} (hx : x < (extent s.imgA).1) (hy : y < (extent s.imgA).2)
    (hc : c < 3) :
    Memory.get? (unmerged s).out (off (extent s.imgA).1 x y c) =
      some (unmergeByte (s.byteAt .inA (off s.aw.toNat x y c))) :=
  get?_ofBytes_layout (unmergeImg s.imgA) hx hy hc

theorem nonblack_imgA (s : State) (x y : Nat) : nonblack s.imgA x y = true ↔ NonblackAt s x y :=
  nonblack_iff s.imgA x y

/-- The running extent of the scan is the inferred extent (R107). -/
theorem inferredExtent_extent (s : State) : InferredExtent s (extent s.imgA).1 (extent s.imgA).2 := by
  rcases extent_spec s.imgA with ⟨hnone, he⟩ | ⟨xs, ys, hxs, hys, hn, hlast, he⟩
  · rw [he]
    refine .inl ⟨fun x y hx hy hn => ?_, rfl, rfl⟩
    rw [← nonblack_imgA, hnone x y hx hy] at hn
    cases hn
  · rw [he]
    exact .inr ⟨xs, ys, hxs, hys, (nonblack_imgA s xs ys).mp hn,
      fun x y hx hy h => hlast x y hx hy ((nonblack_imgA s x y).mpr h), rfl, rfl⟩

/-- Settles O33: the capacity check, and else the cropped reconstruction stands in OUT byte by byte. -/
theorem unmergeCommand : Obligations.UnmergeCommand := by
  unfold Obligations.UnmergeCommand
  refine ⟨rfl, fun s => ⟨exec_unmerge_capacity, fun hc => ⟨unmerged s, exec_unmerge_result hc, rfl, ?_⟩⟩⟩
  obtain ⟨hw, hh⟩ := unmerged_size s
  rw [hw, hh]
  exact ⟨inferredExtent_extent s, unmerged_olen hc, fun x y c => get?_unmerged_out s,
    fun a => get?_ofBytes_layout_beyond (unmergeImg s.imgA)⟩

/-! ## UNMERGE after MERGE -/

/-- The state in which the merged image stands in IN_A again. -/
abbrev mergedBack (s : State) : State := { merged s with inA := (merged s).out }

theorem byteAt_mergedBack (s : State) {x y c : Nat} (hx : x < s.aw.toNat) (hy : y < s.ah.toNat) (hc : c < 3) :
    (mergedBack s).byteAt .inA (off s.aw.toNat x y c) =
      mergeByte (s.byteAt .inA (off s.aw.toNat x y c)) (payloadByte s x y c) := by
  have h : Memory.get? ((mergedBack s).buffer .inA) (off s.aw.toNat x y c) = _ := get?_merged_out s hx hy hc
  rw [State.byteAt, h]

/-- Settles O36: a merged byte unmerges to the payload byte's upper nibble, on images and on the machine. -/
theorem mergeThenUnmergeRecoversThePayload : Obligations.MergeThenUnmergeRecoversThePayload := by
  unfold Obligations.MergeThenUnmergeRecoversThePayload
  refine ⟨fun c p x y ch => unmergeByte_mergeByte _ _, fun s t h herr => ?_⟩
  obtain ⟨_, _, hc, rfl⟩ := exec_merge_noError h herr
  obtain ⟨hw, hh⟩ := unmerged_size (mergedBack s)
  obtain ⟨hlew, hleh⟩ := extent_le (mergedBack s).imgA
  refine ⟨unmerged (mergedBack s), exec_unmerge_result (s := mergedBack s) hc, err_complete .., ?_⟩
  rw [hw, hh]
  refine ⟨hlew, hleh, fun x y c hx hy hc => ?_⟩
  rw [← unmergeByte_mergeByte, ← byteAt_mergedBack s (hx.trans_le hlew) (hy.trans_le hleh) hc]
  exact get?_unmerged_out (mergedBack s) hx hy hc

/-! ## The extent of a merged image (R116) -/

/-- A payload pixel that MERGE embeds as a pixel that is not black: some channel is 16 or more. -/
def Bright (s : State) (x y : Nat) : Prop :=
  ∃ c, c < 3 ∧ 16 ≤ (s.byteAt .inB (3 * (y * s.bw.toNat + x) + c)).toNat

theorem mergeByte_lower_ne_zero (cb pb : Byte) : mergeByte cb pb &&& 0x0F#8 ≠ 0 ↔ 16 ≤ pb.toNat := by
  rw [mergeByte_and_0x0F, ne_eq, ← BitVec.toNat_inj, toNat_shiftRight_four]
  show ¬ pb.toNat / 16 = 0 ↔ _
  omega

theorem payloadByte_bright {s : State} {x y c : Nat} :
    16 ≤ (payloadByte s x y c).toNat ↔ (x < s.bw.toNat ∧ y < s.bh.toNat) ∧
      16 ≤ (s.byteAt .inB (3 * (y * s.bw.toNat + x) + c)).toNat := by
  unfold payloadByte
  split
  next hin => simp [hin]
  next hout => simp [hout]

/-- A merged pixel is non-black exactly where a bright payload pixel lies. -/
theorem nonblackAt_mergedBack {s : State} {x y : Nat} (hx : x < s.aw.toNat) (hy : y < s.ah.toNat) :
    NonblackAt (mergedBack s) x y ↔ (x < s.bw.toNat ∧ y < s.bh.toNat) ∧ Bright s x y := by
  have hbyte (c : Nat) (hc : c < 3) :
      (mergedBack s).byteAt .inA (off s.aw.toNat x y c) &&& 0x0F#8 ≠ 0 ↔ (x < s.bw.toNat ∧ y < s.bh.toNat) ∧
        16 ≤ (s.byteAt .inB (3 * (y * s.bw.toNat + x) + c)).toNat := by
    rw [byteAt_mergedBack s hx hy hc, mergeByte_lower_ne_zero, payloadByte_bright]
  constructor
  · rintro ⟨c, hc, hne⟩
    obtain ⟨hin, hb⟩ := (hbyte c hc).mp hne
    exact ⟨hin, c, hc, hb⟩
  · rintro ⟨hin, c, hc, hb⟩
    exact ⟨c, hc, (hbyte c hc).mpr ⟨hin, hb⟩⟩

/-- The extent inferred from a merged image: the carrier's size without a bright pixel, else up to the last bright one. -/
theorem extent_mergedBack_cases {s : State} (hw : s.bw.toNat ≤ s.aw.toNat) (hh : s.bh.toNat ≤ s.ah.toNat) :
    ((∀ x y, x < s.bw.toNat → y < s.bh.toNat → ¬ Bright s x y) ∧
      extent (mergedBack s).imgA = (s.aw.toNat, s.ah.toNat)) ∨
    ∃ xs ys, xs < s.bw.toNat ∧ ys < s.bh.toNat ∧ Bright s xs ys ∧
      (∀ x y, x < s.bw.toNat → y < s.bh.toNat → Bright s x y → x < xs ∨ (x = xs ∧ y ≤ ys)) ∧
      extent (mergedBack s).imgA = (xs + 1, ys + 1) := by
  have hn {x y : Nat} (hx : x < s.bw.toNat) (hy : y < s.bh.toNat) (hb : Bright s x y) :
      NonblackAt (mergedBack s) x y :=
    (nonblackAt_mergedBack (hx.trans_le hw) (hy.trans_le hh)).mpr ⟨⟨hx, hy⟩, hb⟩
  rcases inferredExtent_extent (mergedBack s) with ⟨hnone, hew, heh⟩ | ⟨xs, ys, hxs, hys, hns, hlast, hew, heh⟩
  · exact .inl ⟨fun x y hx hy hb => hnone x y (hx.trans_le hw) (hy.trans_le hh) (hn hx hy hb), Prod.ext hew heh⟩
  · obtain ⟨⟨hxb, hyb⟩, hb⟩ := (nonblackAt_mergedBack (s := s) hxs hys).mp hns
    exact .inr ⟨xs, ys, hxb, hyb, hb,
      fun x y hx hy hb => hlast x y (hx.trans_le hw) (hy.trans_le hh) (hn hx hy hb), Prod.ext hew heh⟩

/-- Settles O35: the extent ends at the last bright pixel, which lies inside the payload. -/
theorem extentOfAMergedImage : Obligations.ExtentOfAMergedImage := by
  unfold Obligations.ExtentOfAMergedImage
  intro s t u hm hmerr hu _ bright anyBright
  obtain ⟨hw, hh, hc, rfl⟩ := exec_merge_noError hm hmerr
  obtain rfl : unmerged (mergedBack s) = u := by
    rw [exec_unmerge_result (s := mergedBack s) hc] at hu
    cases hu
    rfl
  obtain ⟨how, hoh⟩ := unmerged_size (mergedBack s)
  simp only [← BitVec.toNat_inj]
  rw [how, hoh]
  rcases extent_mergedBack_cases hw hh with ⟨hnone, he⟩ | ⟨xs, ys, hxs, hys, hb, hlast, he⟩
  · have hdark : ¬ anyBright := fun ⟨x, y, hx, hy, hb⟩ => hnone x y hx hy hb
    rw [he]
    refine ⟨fun h => absurd h hdark, fun _ => ⟨rfl, rfl⟩, fun ⟨hew, heh⟩ => .inr ⟨hdark, hew.symm, heh.symm⟩, ?_⟩
    rintro (⟨h0w, h0h, hb⟩ | ⟨_, hew, heh⟩)
    · exact absurd hb (hnone _ _ (Nat.sub_one_lt_of_lt h0w) (Nat.sub_one_lt_of_lt h0h))
    · exact ⟨hew.symm, heh.symm⟩
  · have hany : anyBright := ⟨xs, ys, hxs, hys, hb⟩
    rw [he]
    refine ⟨fun _ => ⟨hxs, hys⟩, fun h => absurd hany h, ?_, ?_⟩
    · rintro ⟨hew, heh⟩
      rw [← hew, ← heh]
      exact .inl ⟨Nat.succ_pos xs, Nat.succ_pos ys, hb⟩
    · rintro (⟨h0w, h0h, hb⟩ | ⟨hdark, _⟩)
      · have hcorner := hlast _ _ (Nat.sub_one_lt_of_lt h0w) (Nat.sub_one_lt_of_lt h0h) hb
        simp only
        omega
      · exact absurd hany hdark

end Sys2Proof.Machine
end

section
/-! The padding and the CBC chaining as functions (41_cipher_envelope.md R131 to R139): what each byte and each block is, and what undoes what. -/

namespace Sys2Proof.Machine

/-! ## Padding -/

/-- The bytes of a padded plaintext (R131). -/
theorem getElem?_pad (b : List Byte) {a : Nat} (ha : a < b.length + padCount b.length) :
    (pad b)[a]? = if a < b.length then b[a]? else some (BitVec.ofNat 8 (padCount b.length)) := by
  unfold pad
  split
  next hlt => rw [List.getElem?_append_left hlt]
  next hge => rw [List.getElem?_append_right (by omega), List.getElem?_replicate, if_pos (by omega)]

theorem length_pad_eq (b : List Byte) : (pad b).length = 8 * (b.length / 8 + 1) := by
  rw [length_pad, padCount]
  omega

/-- Settles O38: the plaintext's bytes and the filler bytes are the two cases of a padded byte. -/
theorem paddingBytes : Obligations.PaddingBytes := by
  unfold Obligations.PaddingBytes
  intro b
  obtain ⟨hlow, hhigh⟩ := padCount_bounds b.length
  refine ⟨hlow, hhigh, length_pad_eq b, fun a ha => ?_, fun a hge hlt => ?_⟩
  · rw [getElem?_pad b (by omega), if_pos ha]
  · rw [getElem?_pad b hlt, if_neg (by omega), padCount]

theorem padOk_of_endsInPadding {p : List Byte} {n : Nat} (hp : 8 ≤ p.length) (h : EndsInPadding p n) :
    padOk p = true := by
  rw [padOk_iff, padFound_of_endsInPadding hp h]
  exact h

theorem unpad_of_endsInPadding {p : List Byte} {n : Nat} (hp : 8 ≤ p.length) (h : EndsInPadding p n) :
    unpad p = p.take (p.length - n) := by
  rw [unpad, padFound_of_endsInPadding hp h]

theorem padOk_eq_false {p : List Byte} (h : ∀ n, ¬ EndsInPadding p n) : padOk p = false := by
  rw [← Bool.not_eq_true, padOk_iff]
  exact h _

@[simp] theorem padOk_pad (b : List Byte) : padOk (pad b) = true :=
  padOk_of_endsInPadding (eight_le_length_pad b) (pad_endsInPadding b)

@[simp] theorem unpad_pad (b : List Byte) : unpad (pad b) = b := by
  rw [unpad, padFound_pad, length_pad, Nat.add_sub_cancel, pad, List.take_left]

/-- Settles O39: the count found is the number of filler bytes. -/
theorem unpadRemovesThePadding : Obligations.UnpadRemovesThePadding := by
  unfold Obligations.UnpadRemovesThePadding
  exact ⟨fun p n hp h => ⟨padOk_of_endsInPadding hp h, unpad_of_endsInPadding hp h⟩,
    fun p _ h => ⟨_, (padOk_iff p).mp h⟩, fun b => ⟨padOk_pad b, unpad_pad b⟩⟩

/-! ## Chaining -/

/-- R133, R136: each block is combined with the same block before it on both ways. -/
theorem cbcDec_cbcEnc {enc dec : Block → Block} (h : ∀ b, dec (enc b) = b) (iv : Block) (p : List Block) :
    cbcDec dec iv (cbcEnc enc iv p) = p := by
  induction p generalizing iv with
  | nil => rfl
  | cons b bs ih => rw [cbcEnc, cbcDec, h, xor_xor_self, ih]

/-- Settles O45: by induction on the blocks, the IV free. -/
theorem cbcDecryptionUndoesEncryption : Obligations.CbcDecryptionUndoesEncryption := by
  unfold Obligations.CbcDecryptionUndoesEncryption
  exact fun enc dec iv p h => ⟨cbcDec_cbcEnc h iv p, length_cbcEnc enc iv p⟩

/-- Settles O44: block `i` reads ciphertext block `i` and the block before it. -/
theorem decryptedBlockDependsOnTwoBlocks : Obligations.DecryptedBlockDependsOnTwoBlocks := by
  unfold Obligations.DecryptedBlockDependsOnTwoBlocks
  intro dec iv ct
  constructor
  · intro x j i hj hj1
    have hprev : (iv :: ct.set j x)[i]? = (iv :: ct)[i]? := by
      rw [← List.set_cons_succ, List.getElem?_set_ne (Ne.symm hj1)]
    rw [cbcDec_getElem?, cbcDec_getElem?, List.getElem?_set_ne (Ne.symm hj), hprev]
  · intro iv' i hi
    obtain ⟨k, rfl⟩ := Nat.exists_eq_succ_of_ne_zero hi
    rw [cbcDec_getElem?, cbcDec_getElem?, List.getElem?_cons_succ, List.getElem?_cons_succ]

/-! ## The envelope -/

theorem formatOk_envelopeEnc (c : Cipher) (b : List Byte) (k : Key) (iv : Block) :
    formatOk (envelopeEnc c b k iv).length = true := by
  rw [formatOk_iff, length_envelopeEnc]
  omega

theorem decryptBlob_envelopeEnc {c : Cipher} (hc : BcInv c) (b : List Byte) (k : Key) (iv : Block) :
    decryptBlob c k (envelopeEnc c b k iv) = pad b := by
  rw [envelopeEnc_eq_flatten, decryptBlob, toBlocks_flatten]
  show flatten (cbcDec (bcDec c k) iv (cbcEnc (bcEnc c k) iv (toBlocks (pad b)))) = pad b
  rw [cbcDec_cbcEnc (hc k), flatten_toBlocks _ (length_pad_mod b)]

/-- Settles O42: the decrypted bytes are the padded plaintext. -/
theorem envelopeRoundTrip : Obligations.EnvelopeRoundTrip := by
  unfold Obligations.EnvelopeRoundTrip
  intro c b k iv hc
  simp [envelopeDec, formatOk_envelopeEnc, decryptBlob_envelopeEnc hc]

end Sys2Proof.Machine
end

section
/-! ENVPAD and ENVUNPAD block by block (41_cipher_envelope.md R140, R150), and the round trip on the machine (R139). -/

namespace Sys2Proof.Machine

/-! ## The operands -/

theorem getElem?_stringA (s : State) (a : Nat) :
    s.stringA[a]? = if a < s.alen.toNat then some (s.byteAt .inA a) else none := getElem?_bytesOf s .inA s.alen.toNat a

/-- A whole block of the operand (R132). -/
theorem blockOf_stringA (s : State) {j : Nat} (hj : 8 * j + 8 ≤ s.alen.toNat) :
    blockOf (fun a => s.stringA.getD a 0) j = blockOf (s.byteAt .inA) j := by
  refine blockOf_congr fun a _ ha => ?_
  rw [List.getD_eq_getElem?_getD, getElem?_stringA, if_pos (by omega), Option.getD_some]

theorem getElem?_pad_stringA (s : State) {a : Nat} (ha : a < s.alen.toNat + padCount s.alen.toNat) :
    (pad s.stringA)[a]? = some (paddedByte s a) := by
  have hlen := length_stringA s
  rw [getElem?_pad _ (by rwa [hlen]), hlen, getElem?_stringA, paddedByte, padCount]
  split <;> rfl

theorem length_toBlocks_pad (b : List Byte) : (toBlocks (pad b)).length = b.length / 8 + 1 := by
  rw [length_toBlocks _ (length_pad_mod b), length_pad_eq, Nat.mul_div_cancel_left _ (by decide)]

/-- The blocks of the padded plaintext (R131, R132). -/
theorem toBlocks_pad_stringA (s : State) {j : Nat} (hj : j < (toBlocks (pad s.stringA)).length) :
    (toBlocks (pad s.stringA))[j] = blockOf (paddedByte s) j := by
  rw [toBlocks_getElem _ (length_pad_mod _) j hj]
  rw [length_toBlocks_pad, length_stringA] at hj
  refine blockOf_congr fun a _ ha => ?_
  rw [List.getD_eq_getElem?_getD, getElem?_pad_stringA s (by rw [padCount]; omega), Option.getD_some]

theorem key_afterIvDraw (s : State) : s.afterIvDraw.key = s.key :=
  key_congr (afterIvDraw_key0 s) (afterIvDraw_key1 s)

/-! ## ENVPAD -/

theorem length_blobBlocks (c : Cipher) (b : List Byte) (k : Key) (iv : Block) :
    (blobBlocks c b k iv).length = b.length / 8 + 2 := by
  rw [blobBlocks, List.length_cons, length_cbcEnc, length_toBlocks_pad]

/-- R133: a ciphertext block is the encryption of the plaintext block combined with the block before it in the blob. -/
theorem blobBlocks_succ (c : Cipher) (b : List Byte) (k : Key) (iv : Block) {j : Nat}
    (hj : j < (toBlocks (pad b)).length) (h : j + 1 < (blobBlocks c b k iv).length) :
    (blobBlocks c b k iv)[j + 1] = bcEnc c k (Block.xor (toBlocks (pad b))[j] (blobBlocks c b k iv)[j]) := by
  apply Option.some.inj
  rw [← List.getElem?_eq_getElem h]
  show (cbcEnc (bcEnc c k) iv (toBlocks (pad b)))[j]? = _
  rw [cbcEnc_getElem?, List.getElem?_eq_getElem hj, Option.bind_some]
  show Option.map _ (blobBlocks c b k iv)[j]? = _
  rw [List.getElem?_eq_getElem (Nat.lt_of_succ_lt h), Option.map_some]

/-- The blob of ENVPAD (R140). -/
abbrev State.blob (s : State) : List Byte := envelopeEnc s.setup.cipher s.stringA s.key s.nextIv

theorem length_blob (s : State) : s.blob.length = s.alen.toNat + 16 - s.alen.toNat % 8 := by
  rw [length_envelopeEnc, length_stringA]

/-- The state after an ENVPAD without error. -/
abbrev enveloped (s : State) : State := complete 0 0 s.blob s.afterIvDraw

theorem enveloped_olen {s : State} (hc : s.alen.toNat ≤ s.setup.cap.val) :
    (enveloped s).olen.toNat = s.blob.length := by
  have hlen := length_blob s
  rw [complete_olen, toNat_ofNat_of_fits_out (s := s) (by omega)]

theorem blockOf_enveloped_succ (s : State) {j : Nat} (hj : j < s.alen.toNat / 8 + 1) :
    blockOf (knownByte (enveloped s).out) (j + 1) =
      bcEnc s.setup.cipher s.key
        (Block.xor (blockOf (paddedByte s) j) (blockOf (knownByte (enveloped s).out) j)) := by
  have hbs := length_blobBlocks s.setup.cipher s.stringA s.key s.nextIv
  have hpad := length_toBlocks_pad s.stringA
  rw [length_stringA] at hbs hpad
  rw [complete_out, State.blob, envelopeEnc_eq_flatten, blockOf_knownByte_flatten _ (by omega),
    blobBlocks_succ (hj := by omega), toBlocks_pad_stringA, blockOf_knownByte_flatten]

/-- Settles O40: the capacity check, and else OUT holds the blocks of the blob. -/
theorem envpadCommand : Obligations.EnvpadCommand := by
  unfold Obligations.EnvpadCommand
  refine ⟨rfl, fun s => ⟨exec_envpad_capacity, fun hc => ⟨enveloped s, exec_envpad_result hc, ?_, ?_, ?_,
    blockOf_envelopeEnc_zero .., fun j => blockOf_enveloped_succ s⟩⟩⟩
  · conv_lhs => rw [enveloped, complete, afterIvDraw_eq]
    rfl
  · rw [enveloped_olen hc, length_blob]
  · intro a
    rw [enveloped_olen hc, complete_out, get?_ofBytes_zero, List.getElem?_eq_none_iff]

/-! ## ENVUNPAD -/

/-- R136, R138: a decrypted block is the decryption of the next block of the blob combined with the block before it. -/
theorem blockOf_decryptBlob (c : Cipher) (k : Key) {l : List Byte} (h : formatOk l.length = true) {j : Nat}
    (hj : j < (l.length - 8) / 8) :
    blockOf (fun a => (decryptBlob c k l).getD a 0) j =
      Block.xor (bcDec c k (blockOf (fun a => l.getD a 0) (j + 1))) (blockOf (fun a => l.getD a 0) j) := by
  obtain ⟨iv, ct, ht, hct⟩ := toBlocks_blob h
  have hmod : l.length % 8 = 0 := by
    rw [formatOk_iff] at h
    omega
  have hblock (i : Nat) (hi : i < (iv :: ct).length) : (iv :: ct)[i] = blockOf (fun a => l.getD a 0) i := by
    rw [← toBlocks_getElem l hmod i (by rwa [ht])]
    simp only [ht]
  have hdec : decryptBlob c k l = flatten (cbcDec (bcDec c k) iv ct) := by
    rw [decryptBlob, ht]
  rw [hdec, blockOf_flatten _ j (by rw [length_cbcDec]; omega), ← hblock (j + 1) (by rw [List.length_cons]; omega),
    ← hblock j (by rw [List.length_cons]; omega)]
  apply Option.some.inj
  rw [← List.getElem?_eq_getElem, cbcDec_getElem?, List.getElem?_eq_getElem (by omega : j < ct.length),
    Option.bind_some, List.getElem?_eq_getElem (by rw [List.length_cons]; omega : j < (iv :: ct).length), Option.map_some]
  rfl

/-- The decrypted bytes of ENVUNPAD (R150). -/
abbrev State.decrypted (s : State) : List Byte := decryptBlob s.setup.cipher s.key s.stringA

theorem length_decrypted {s : State} (h : formatOk s.alen.toNat = true) : s.decrypted.length = s.alen.toNat - 8 := by
  rw [length_decryptBlob _ _ (by rwa [length_stringA]), length_stringA]

theorem blockOf_decrypted {s : State} (h : formatOk s.alen.toNat = true) {j : Nat}
    (hj : j < (s.alen.toNat - 8) / 8) :
    blockOf (fun a => s.decrypted.getD a 0) j =
      Block.xor (bcDec s.setup.cipher s.key (blockOf (s.byteAt .inA) (j + 1))) (blockOf (s.byteAt .inA) j) := by
  rw [blockOf_decryptBlob _ _ (by rwa [length_stringA]) (by rwa [length_stringA]), blockOf_stringA s (by omega),
    blockOf_stringA s (by omega)]

theorem formatOk_eq_false {n : Nat} (h : n < 16 ∨ (n - 8) % 8 ≠ 0) : formatOk n = false := by
  rw [← Bool.not_eq_true, formatOk_iff]
  omega

/-- Settles O41: the checks in their order, then the padding test on the decrypted bytes. -/
theorem envunpadCommand : Obligations.EnvunpadCommand := by
  unfold Obligations.EnvunpadCommand
  refine ⟨rfl, fun s => ⟨fun h => exec_envunpad_format (formatOk_eq_false h),
    fun h16 hmod hc => exec_envunpad_capacity ((formatOk_iff _).mpr ⟨h16, hmod⟩) hc, fun h16 hmod hc => ?_⟩⟩
  have hf : formatOk s.alen.toNat = true := (formatOk_iff _).mpr ⟨h16, hmod⟩
  have hlen := length_decrypted hf
  refine ⟨s.decrypted, hlen, fun j => blockOf_decrypted hf, fun h => exec_envunpad_padding hf hc (padOk_eq_false h),
    fun n h => ?_⟩
  have hp : 8 ≤ s.decrypted.length := by omega
  have hbytes : (unpad s.decrypted).length = s.alen.toNat - 8 - n := by
    rw [unpad_of_endsInPadding hp h, List.length_take]
    omega
  refine ⟨_, exec_envunpad_result hf hc (padOk_of_endsInPadding hp h), rfl, ?_, fun a ha => ?_, fun a ha => ?_⟩
  · rw [complete_olen, hbytes, toNat_ofNat_of_fits_out (s := s) (by omega)]
  · rw [complete_out, get?_ofBytes_zero, unpad_of_endsInPadding hp h, List.getElem?_take_of_lt (by omega)]
  · rw [complete_out, get?_ofBytes_zero, List.getElem?_eq_none (hbytes.trans_le ha)]

/-! ## The round trip -/

/-- A byte string that stands in IN_A is read back (20_memory.md R61). -/
theorem bytesOf_inA_ofBytes {s : State} {bytes : List Byte} (h : s.inA = Memory.ofBytes 0 bytes) :
    s.bytesOf .inA bytes.length = bytes := by
  apply List.ext_getElem?
  intro a
  rw [getElem?_bytesOf]
  split
  next ha => rw [State.byteAt, State.buffer, h, get?_ofBytes_zero, List.getElem?_eq_getElem ha]
  next ha => rw [List.getElem?_eq_none (by omega)]

/-- An ENVPAD without error passed its check. -/
theorem exec_envpad_noError {s t : State} (h : exec .envpad s = .next t) (herr : statusErr t.status = false) :
    s.alen.toNat ≤ s.setup.cap.val ∧ t = enveloped s := by
  rcases Nat.lt_or_ge s.setup.cap.val s.alen.toNat with hc | hc
  · rw [exec_envpad_capacity hc] at h
    cases h
    rw [err_raise] at herr
    cases herr
  · rw [exec_envpad_result hc] at h
    cases h
    exact ⟨hc, rfl⟩

/-- The state in which the blob stands in IN_A with its length in ALEN. -/
abbrev envelopedBack (s : State) : State :=
  { enveloped s with inA := (enveloped s).out, alen := (enveloped s).olen }

theorem envelopedBack_stringA {s : State} (hc : s.alen.toNat ≤ s.setup.cap.val) :
    (envelopedBack s).stringA = s.blob := by
  have h := bytesOf_inA_ofBytes (s := envelopedBack s) (bytes := s.blob) rfl
  rwa [← enveloped_olen hc] at h

theorem envelopedBack_decrypted {s : State} (hinv : BcInv s.setup.cipher) (hc : s.alen.toNat ≤ s.setup.cap.val) :
    (envelopedBack s).decrypted = pad s.stringA := by
  have hset : (envelopedBack s).setup = s.setup := afterIvDraw_setup s
  have hkey : (envelopedBack s).key = s.key := key_afterIvDraw s
  rw [State.decrypted, hset, hkey, envelopedBack_stringA hc, decryptBlob_envelopeEnc hinv]

/-- Settles O43: ENVUNPAD decrypts the padded plaintext and removes the padding. -/
theorem envpadThenEnvunpadRecoversThePlaintext : Obligations.EnvpadThenEnvunpadRecoversThePlaintext := by
  unfold Obligations.EnvpadThenEnvunpadRecoversThePlaintext
  intro s t hinv h herr hfits
  obtain ⟨hc, rfl⟩ := exec_envpad_noError h herr
  have hf : formatOk (envelopedBack s).alen.toNat = true := by
    rw [enveloped_olen hc]
    exact formatOk_envelopeEnc ..
  have hc' : (envelopedBack s).alen.toNat ≤ (envelopedBack s).setup.cap.val := by
    rw [show (envelopedBack s).setup = s.setup from afterIvDraw_setup s]
    exact hfits
  have hdec := envelopedBack_decrypted hinv hc
  unfold State.decrypted at hdec
  have hrun := exec_envunpad_result hf hc' (by rw [hdec, padOk_pad])
  rw [hdec, unpad_pad] at hrun
  refine ⟨_, hrun, rfl, ?_, fun a ha => ?_, fun a ha => ?_⟩
  · rw [complete_olen, length_stringA, BitVec.ofNat_toNat, BitVec.setWidth_eq]
  · rw [complete_out, get?_ofBytes_zero, getElem?_stringA, if_pos ha]
  · rw [complete_out, get?_ofBytes_zero, getElem?_stringA, if_neg (by omega)]

end Sys2Proof.Machine
end

section
/-! The host script (30_encoding.md R90, R91), line by line: a line's turns, run one after another. -/

namespace Sys2Proof.Machine

/-- A run goes on from where a first part of it ended. -/
theorem run_add_of_next {m : Nat} {s t : State} (k : Nat) (h : core.run m s = .next t) :
    core.run (m + k) s = core.run k t := by
  induction m generalizing s with
  | zero =>
    cases h
    rw [Nat.zero_add]
  | succ m ih =>
    rw [Nat.succ_add]
    cases hs : step s with
    | next u => exact (run_succ_of_next hs).trans (ih ((run_succ_of_next hs).symm.trans h))
    | refused r => cases (run_succ_of_refused hs).symm.trans h
    | fault r => exact absurd hs (noStepFaults s r)

/-! ## Loading a buffer -/

/-- What loading leaves: `t` is `s` with the turns taken and the buffer `b` reading `byte` at each offset. -/
structure Loaded (s t : State) (b : Buf) (rest : List Turn) (byte : Nat → Option Byte) : Prop where
  bytes : ∀ a, Memory.get? (t.buffer b) a = byte a
  frame : t = { s with turns := rest, inA := t.inA, inB := t.inB }
  other : ∀ b', b' ≠ b → t.buffer b' = s.buffer b'

/-- The bytes of a buffer after a byte string was written from offset `k` on. -/
def overwrite (m : Memory) (k : Nat) (bytes : List Byte) (a : Nat) : Option Byte :=
  if k ≤ a ∧ a < k + bytes.length then bytes[a - k]? else Memory.get? m a

theorem overwrite_cons {m m' : Memory} {k : Nat} {v : Byte} (bytes : List Byte)
    (h : ∀ a, Memory.get? m' a = if a = k then some v else Memory.get? m a) (a : Nat) :
    overwrite m' (k + 1) bytes a = overwrite m k (v :: bytes) a := by
  unfold overwrite
  rw [h, List.length_cons]
  rcases Nat.lt_trichotomy a k with hlt | rfl | hgt
  · rw [if_neg (by omega), if_neg (by omega), if_neg (by omega)]
  · rw [if_neg (by omega), if_pos rfl, if_pos (by omega), Nat.sub_self, List.getElem?_cons_zero]
  · obtain ⟨d, rfl⟩ : ∃ d, a = k + 1 + d := Nat.exists_eq_add_of_le hgt
    rw [if_neg (by omega : ¬ k + 1 + d = k), show k + 1 + d - k = d + 1 by omega, List.getElem?_cons_succ,
      Nat.add_sub_cancel_left]
    exact if_congr (by omega) rfl rfl

/-- The writes of a byte string to consecutive offsets (R91). -/
theorem run_loadTurns {b : Buf} (ho : b ≠ .out) {rest : List Turn} (bytes : List Byte) {s : State} {k : Nat}
    (hb : s.busy = false) (hk : k + bytes.length ≤ s.setup.cap.val) (hts : s.turns = loadTurns b k bytes ++ rest) :
    ∃ t, core.run bytes.length s = .next t ∧ Loaded s t b rest (overwrite (s.buffer b) k bytes) := by
  induction bytes generalizing s k with
  | nil =>
    have hturns : s.turns = rest := hts
    refine ⟨s, rfl, fun a => ?_, by rw [← hturns], fun _ _ => rfl⟩
    rw [overwrite, if_neg (by simp)]
  | cons v bytes ih =>
    rw [List.length_cons] at hk
    obtain ⟨u, hu, hbyte, hframe, hother⟩ :=
      step_bufWrite s b k (.lit v) (loadTurns b (k + 1) bytes ++ rest) hb ho (by omega) hts
    have hbusy : u.busy = false := (congrArg State.busy hframe).trans hb
    have hset : u.setup = s.setup := by rw [hframe]
    obtain ⟨t, ht, hloaded⟩ := ih hbusy (by rw [hset]; omega) (congrArg State.turns hframe)
    refine ⟨t, (run_succ_of_next hu).trans ht, fun a => ?_, ?_, fun b' hb' => ?_⟩
    · exact (hloaded.bytes a).trans (overwrite_cons bytes hbyte a)
    · rw [hframe] at hloaded
      exact hloaded.frame
    · exact (hloaded.other b' hb').trans (hother b' hb')

/-- Settles O46: the load of the bytes from offset 0. -/
theorem ldbytesLoadsTheBuffer : Obligations.LdbytesLoadsTheBuffer := by
  unfold Obligations.LdbytesLoadsTheBuffer
  intro s b bytes rest hb ho hlen hts
  obtain ⟨t, ht, hloaded⟩ := run_loadTurns ho bytes hb (by omega) hts
  refine ⟨t, ht, fun a => ?_, hloaded.frame, hloaded.other⟩
  rw [hloaded.bytes, overwrite, Nat.sub_zero]
  exact if_congr (by omega) rfl rfl

/-! ## Loading an image -/

/-- The bytes of a list of pixels. -/
def pixelBytes (pixels : List (Byte × Byte × Byte)) : List Byte := pixels.flatMap fun p => [p.1, p.2.1, p.2.2]

theorem length_pixelBytes (pixels : List (Byte × Byte × Byte)) : (pixelBytes pixels).length = 3 * pixels.length := by
  induction pixels with
  | nil => rfl
  | cons p pixels ih =>
    rw [pixelBytes, List.flatMap_cons, List.length_append, ← pixelBytes, ih, List.length_cons, List.length_cons,
      List.length_cons, List.length_cons, List.length_nil]
    omega

/-- The three bytes of a pixel stand at three times its place. -/
theorem getElem?_pixelBytes {pixels : List (Byte × Byte × Byte)} {i : Nat} {p : Byte × Byte × Byte}
    (h : pixels[i]? = some p) :
    (pixelBytes pixels)[3 * i]? = some p.1 ∧ (pixelBytes pixels)[3 * i + 1]? = some p.2.1 ∧
      (pixelBytes pixels)[3 * i + 2]? = some p.2.2 := by
  induction pixels generalizing i with
  | nil => cases h
  | cons q pixels ih =>
    cases i with
    | zero =>
      cases h
      exact ⟨rfl, rfl, rfl⟩
    | succ i => exact ih h

theorem ldimg_turns (b : Buf) {w h : Nat} {pixels : List (Byte × Byte × Byte)} (hlen : pixels.length = w * h) :
    (ScriptLine.ldimg b w h pixels).turns = loadTurns b 0 (pixelBytes pixels) := by
  rw [ScriptLine.turns, ← hlen, List.take_length, pixelBytes]

/-- Settles O47: the load of the pixels' bytes from offset 0. -/
theorem ldimgLoadsTheImage : Obligations.LdimgLoadsTheImage := by
  unfold Obligations.LdimgLoadsTheImage
  intro s b w h pixels rest hb ho hlen hcap hts
  have hbytes : (pixelBytes pixels).length = 3 * w * h := by rw [length_pixelBytes, hlen, Nat.mul_assoc]
  rw [ldimg_turns b hlen] at hts
  obtain ⟨t, ht, hloaded⟩ := run_loadTurns ho (pixelBytes pixels) hb (by omega) hts
  rw [hbytes] at ht
  refine ⟨t, ht, fun x y hx hy => ?_, fun a ha => ?_, hloaded.frame, hloaded.other⟩
  · have hoff : 3 * (y * w + x) + 2 < 3 * w * h := off_lt hx hy (by decide)
    have hplace : y * w + x < pixels.length := by
      rw [length_pixelBytes] at hbytes
      omega
    have inside (c : Nat) (hc : c ≤ 2) :
        Memory.get? (t.buffer b) (3 * (y * w + x) + c) = (pixelBytes pixels)[3 * (y * w + x) + c]? := by
      rw [hloaded.bytes, overwrite, if_pos (by omega), Nat.sub_zero]
    obtain ⟨hR, hG, hB⟩ := getElem?_pixelBytes (List.getElem?_eq_getElem hplace)
    exact ⟨_, List.getElem?_eq_getElem hplace, (inside 0 (by decide)).trans hR, (inside 1 (by decide)).trans hG,
      (inside 2 (by decide)).trans hB⟩
  · rw [hloaded.bytes, overwrite, if_neg (by omega)]

/-! ## Copying the result -/

/-- The turns of `copyout` for one more byte. -/
theorem copyout_turns_succ (b : Buf) (n : Nat) :
    (ScriptLine.copyout b (n + 1)).turns =
      (ScriptLine.copyout b n).turns ++ [rbTurn .out n, .host (.bufWrite b n .lastRead)] := by
  simp [ScriptLine.turns, List.range_succ]

/-- `rb OUT[a]` and the write of the byte read to the buffer, from an idle block (R91). -/
theorem run_copyByte {s : State} {b : Buf} {a : Nat} {v : Byte} {rest : List Turn} (hb : s.busy = false)
    (ho : b ≠ .out) (ha : a < s.setup.cap.val) (hv : Memory.get? s.out a = some v)
    (hts : s.turns = rbTurn .out a :: .host (.bufWrite b a .lastRead) :: rest) :
    ∃ t, core.run 2 s = .next t ∧
      (∀ a', Memory.get? (t.buffer b) a' = if a' = a then some v else Memory.get? (s.buffer b) a') ∧
      t = { s with turns := rest, inA := t.inA, inB := t.inB, readByte := t.readByte } ∧
      (∀ b', b' ≠ b → t.buffer b' = s.buffer b') := by
  have hread := step_rbOut s a v _ hb (by omega) hv hts
  have hbuf (b' : Buf) :
      State.buffer { s with turns := .host (.bufWrite b a .lastRead) :: rest, readByte := v } b' = s.buffer b' := by
    cases b' <;> rfl
  obtain ⟨t, ht, hbyte, hframe, hother⟩ :=
    step_bufWrite { s with turns := .host (.bufWrite b a .lastRead) :: rest, readByte := v } b a .lastRead rest hb ho ha
      rfl
  refine ⟨t, (run_succ_of_next hread).trans ((run_one _).trans ht), fun a' => ?_, ?_, fun b' hb' => ?_⟩
  · rw [hbyte, hbuf]
    rfl
  · rw [hframe]
  · rw [hother b' hb', hbuf]

/-- Settles O48: by induction on the number of bytes, each copied by two turns from the buffer OUT, which stays. -/
theorem copyoutCopiesTheResult : Obligations.CopyoutCopiesTheResult := by
  unfold Obligations.CopyoutCopiesTheResult
  intro s b n
  induction n with
  | zero =>
    intro rest _ _ _ _ hts
    have hturns : s.turns = rest := hts
    exact ⟨s, rfl, fun a => by rw [if_neg (Nat.not_lt_zero a)], by rw [← hturns], fun _ _ => rfl⟩
  | succ n ih =>
    intro rest hb ho hn hknown hts
    rw [copyout_turns_succ, List.append_assoc] at hts
    obtain ⟨u, hu, hbyte, hframe, hother⟩ := ih _ hb ho (by omega) (fun a ha => hknown a (by omega)) hts
    obtain ⟨v, hv⟩ := Option.ne_none_iff_exists'.mp (hknown n (Nat.lt_succ_self n))
    have hout : u.out = s.out := by rw [hframe]
    have hset : u.setup = s.setup := by rw [hframe]
    obtain ⟨t, ht, hbyte', hframe', hother'⟩ := run_copyByte ((congrArg State.busy hframe).trans hb) ho
      (by rw [hset]; omega) (by rwa [hout]) (congrArg State.turns hframe)
    refine ⟨t, (run_add_of_next 2 hu).trans ht, fun a => ?_, ?_, fun b' hb' => ?_⟩
    · rw [hbyte', hbyte]
      rcases Nat.lt_trichotomy a n with hlt | rfl | hgt
      · rw [if_neg (by omega), if_pos hlt, if_pos (by omega)]
      · rw [if_pos rfl, if_pos (by omega), hv]
      · rw [if_neg (by omega), if_neg (by omega), if_neg (by omega)]
    · rw [hframe] at hframe'
      exact hframe'
    · exact (hother' b' hb').trans (hother b' hb')

/-! ## The key -/

theorem step_wr {s : State} {r : Reg} {v : Word} {rest : List Turn} (hb : s.busy = false) (hr : r ≠ .cmd)
    (hts : s.turns = wrTurn r v :: rest) : step s = .next (State.writeReg { s with turns := rest } r v) :=
  (step_host hts).trans (hostAction_regWrite v hb hr)

/-- The key that two packed words give (10_state.md R23). -/
theorem key_of_packWords {s : State} {k : Key} (h0 : s.key0 = packWord k.b0 k.b1 k.b2 k.b3)
    (h1 : s.key1 = packWord k.b4 k.b5 k.b6 k.b7) : s.key = k := by
  obtain ⟨e0, e1, e2, e3⟩ := wordByte_packWord k.b0 k.b1 k.b2 k.b3
  obtain ⟨e4, e5, e6, e7⟩ := wordByte_packWord k.b4 k.b5 k.b6 k.b7
  rw [State.key, h0, h1, e0, e1, e2, e3, e4, e5, e6, e7]

/-- Settles O49: two register writes of packed words. -/
theorem keyLineSetsTheKey : Obligations.KeyLineSetsTheKey := by
  unfold Obligations.KeyLineSetsTheKey
  intro s k rest hb hts
  have hfirst := step_wr (r := .key0) hb nofun hts
  have hsecond := step_wr (r := .key1) (v := packWord k.b4 k.b5 k.b6 k.b7) (rest := rest)
    (s := State.writeReg { s with turns := _ } .key0 (packWord k.b0 k.b1 k.b2 k.b3)) hb nofun rfl
  exact ⟨_, (run_succ_of_next hfirst).trans ((run_one _).trans hsecond), key_of_packWords rfl rfl, rfl,
    toNat_packWord .., toNat_packWord ..⟩

/-! ## Waiting -/

/-- The engine's turn in a busy block and the read of STATUS after it. -/
theorem run_engine_rdStatus {s : State} {rest : List Turn} (h : Inv s) (hb : s.busy = true)
    (hts : s.turns = .engine :: rdTurn .status :: rest) :
    ∃ t, core.run 2 s = .next t ∧ t.turns = rest ∧ t.busy = false ∧ statusDone t.status = true ∧
      t.readWord = t.status := by
  obtain ⟨i, hi⟩ := exists_latched h hb
  obtain ⟨u, hu⟩ := exec_next i { s with turns := s.turns.tail }
  have hstep : step s = .next u := (step_engine hb hi (by rw [hts]; rfl)).trans hu
  have hturns : u.turns = rdTurn .status :: rest :=
    (congrArg State.turns (exec_frame hu)).trans (congrArg List.tail hts)
  obtain ⟨hbusy, hdone, _⟩ := exec_done hu
  exact ⟨_, (run_succ_of_next hstep).trans ((run_one _).trans (step_rdStatus u rest hturns)), rfl, hbusy, hdone, rfl⟩

/-- Settles O50: by induction on the reads of STATUS, which leave the busy block as it is. -/
theorem waitEndsWithDone : Obligations.WaitEndsWithDone := by
  unfold Obligations.WaitEndsWithDone
  intro s polls rest h hb hts
  induction polls generalizing s with
  | zero =>
    obtain ⟨t, ht, hturns, hbusy, hdone, hread⟩ := run_engine_rdStatus h hb hts
    exact ⟨t, ht, hturns, hbusy, (congrArg statusBusy hread).trans hbusy, (congrArg statusDone hread).trans hdone,
      hread⟩
  | succ polls ih =>
    have hread := step_rdStatus s ((ScriptLine.wait polls).turns ++ rest) hts
    rw [Nat.succ_add]
    obtain ⟨t, ht, hend⟩ := ih { s with turns := (ScriptLine.wait polls).turns ++ rest, readWord := s.status }
      (inv_of_invView (s := s) rfl h) hb rfl
    exact ⟨t, (run_succ_of_next hread).trans ht, hend⟩

end Sys2Proof.Machine
end

section
/-! The buffer write (20_memory.md R59) and the written-out command words (30_encoding.md R81). -/

namespace Sys2Proof.Machine

/-- Settles O18: the laws of `Memory.put`. -/
theorem bufferWriteReadsBackAndKeepsTheForm : Obligations.BufferWriteReadsBackAndKeepsTheForm := by
  unfold Obligations.BufferWriteReadsBackAndKeepsTheForm
  exact fun m a v => ⟨get?_put m a v, put_put m a v, put_wf a v⟩

/-- Settles O1: the legal words are the encodings of their commands, and of the three others one field is wrong. -/
theorem commandWordsDecodeToTheirCommands : Obligations.CommandWordsDecodeToTheirCommands := by
  unfold Obligations.CommandWordsDecodeToTheirCommands
  exact ⟨decode_encode .merge, decode_encode .unmerge, decode_encode .envpad, decode_encode .envunpad, by decide,
    by decide, by decide, by decide, by decide⟩

end Sys2Proof.Machine
end
